-- ==== Sys2Proof/Word.lean ====
section
/-! DEFINITION. The bit-vector types of the block: a byte is 8 bits (00_scope.md R8, R9), a binary32
pattern is 32 bits (R11), a selector, a year and a count are 16 bits (10_state.md R31). -/

namespace Sys2Proof

/-- One byte: an unsigned 8-bit value, the FIFO's element (R8, R9). -/
abbrev Byte := BitVec 8

/-- A 16-bit unsigned port field: `sel`, `year`, `n`, `len` (R31, R32). -/
abbrev Half := BitVec 16

/-- A binary32 bit pattern (R11). -/
abbrev Word := BitVec 32

end Sys2Proof
end

