-- ==== Sys2Proof/Config.lean ====
section
/-! DEFINITION. What an implementation fixes (00_scope.md R7) and the free values: the answers and the
choice that the spec leaves to the environment or to the receive agent. -/

namespace Sys2Proof

/-- The implementation parameters of R7. They are fixed at construction (R230) and State carries them,
so that a claim can quantify over them (assumption log 1). -/
structure Params where
  /-- `N`, the FIFO's capacity in bytes. -/
  capacity : Nat
  /-- `P_FLOAT_LE`: the binary32 payload fields are little-endian. -/
  floatLE : Bool
  /-- `P_NAN_ACCEPT`: a NaN operand passes a range check. -/
  nanAccept : Bool
  /-- `P_DT_BCD`: the date/time bytes are packed BCD. -/
  dtBCD : Bool
  /-- `P_POLL_INTERVAL_MS`: timing only, no rule reads it (R7, R242). -/
  pollIntervalMs : Nat
  deriving DecidableEq, Repr

/-- The reference values of R7's table. -/
def Params.reference : Params :=
  { capacity := 256, floatLE := true, nanAccept := false, dtBCD := true, pollIntervalMs := 500 }

/-- R7 and P1: `1 <= N <= 65535`. -/
abbrev Params.Valid (p : Params) : Prop := 1 ≤ p.capacity ∧ p.capacity ≤ 65535

namespace Config

/-- The k-th free draw of an answer to `T.bytes_available()` (10_state.md R33, 60_exceptions.md R214),
used where State lists no answer. Assumption log 3. -/
opaque freeAvail : Nat → Nat

/-- The k-th free draw of an answer to `T.read_byte()` (R33, R214). Assumption log 3. -/
opaque freeRead : Nat → Option Byte

/-- The k-th free draw of an answer to `T.write(S)` (R33, R214). Assumption log 3. -/
opaque freeWrite : Nat → Bool

/-- The k-th free draw of the receive agent's choice after a stop was signalled: `true` is one more
whole cycle before the halt, `false` is the halt alone (43_framer.md R182). Assumption log 4. -/
opaque freeLastCycle : Nat → Bool

end Config
end Sys2Proof
end

