-- ==== Sys2Proof/Machine/Float32.lean ====
section
/-! DEFINITION. The value of a binary32 pattern and the ordered comparison with a constant
(00_scope.md R11). No arithmetic is done on floats: patterns are copied and compared only (10_state.md
R30). Binary32 itself is general knowledge by the spec's own mark (93 G2; assumption log 14). -/

namespace Sys2Proof.Machine

/-- The value of a pattern; a finite value is held exactly, as a multiple of 2 to the power -149. -/
inductive F32Value where
  | nan
  | negInf
  | posInf
  | finite (scaled : Int)
  deriving DecidableEq, Repr

/-- `u[30:23]`. -/
def f32Exponent (u : Word) : Nat := (u.extractLsb' 23 8).toNat

/-- `u[22:0]`. -/
def f32Fraction (u : Word) : Nat := (u.extractLsb' 0 23).toNat

/-- `u[31]`. -/
def f32Sign (u : Word) : Bool := u.getLsbD 31

/-- `isNaN(u)` of R11. -/
def isNaN (u : Word) : Bool := f32Exponent u == 0xFF && f32Fraction u != 0

/-- The magnitude of a finite pattern, scaled by 2 to the power 149. -/
def f32Magnitude (u : Word) : Nat :=
  if f32Exponent u = 0 then f32Fraction u
  else (2 ^ 23 + f32Fraction u) * 2 ^ (f32Exponent u - 1)

/-- `value(u)`. -/
def f32Value (u : Word) : F32Value :=
  if isNaN u then .nan
  else if f32Exponent u = 0xFF then (if f32Sign u then .negInf else .posInf)
  else .finite (if f32Sign u then -(f32Magnitude u : Int) else (f32Magnitude u : Int))

/-- An integer constant as a binary32 value. -/
def f32Const (c : Int) : F32Value := .finite (c * 2 ^ 149)

/-- `x <= y`, IEEE-754 ordered: false when either side is NaN (R11). -/
def F32Value.le : F32Value → F32Value → Bool
  | .nan, _ => false
  | _, .nan => false
  | .negInf, _ => true
  | _, .posInf => true
  | .finite x, .finite y => decide (x ≤ y)
  | .finite _, .negInf => false
  | .posInf, .finite _ => false
  | .posInf, .negInf => false

/-- `x < y`, IEEE-754 ordered: false when either side is NaN (R11). -/
def F32Value.lt : F32Value → F32Value → Bool
  | .nan, _ => false
  | _, .nan => false
  | .negInf, .negInf => false
  | .negInf, _ => true
  | .posInf, _ => false
  | .finite _, .posInf => true
  | .finite x, .finite y => decide (x < y)
  | .finite _, .negInf => false

end Sys2Proof.Machine
end

