-- ==== Sys2Proof/Machine/Flags.lean ====
section
/-! DEFINITION. The conditions that operations compute and that no register keeps (10_state.md R29): the
range predicates (40_encoder.md R101), date validity (R113, R114), and the FIFO's status (R28). -/

namespace Sys2Proof.Machine

/-- `nanok(u, c)` of R101. -/
def nanok (p : Params) (u : Word) (c : Bool) : Bool := if isNaN u then p.nanAccept else c

/-- `lo <= value(u)` and `value(u) <= hi`. -/
def inClosed (lo hi : Int) (u : Word) : Bool :=
  (f32Const lo).le (f32Value u) && (f32Value u).le (f32Const hi)

/-- `in_ra(u)` of R101: `[0, 24)`. -/
def inRa (p : Params) (u : Word) : Bool :=
  nanok p u ((f32Const 0).le (f32Value u) && (f32Value u).lt (f32Const 24))

/-- `in_dec(u)` of R101: `[-90, 90]`. -/
def inDec (p : Params) (u : Word) : Bool := nanok p u (inClosed (-90) 90 u)

/-- `in_lat(u)` of R101: `[-180, 180]`, the source's inverted convention, kept. -/
def inLat (p : Params) (u : Word) : Bool := nanok p u (inClosed (-180) 180 u)

/-- `in_lon(u)` of R101: `[-90, 90]`, the source's inverted convention, kept. -/
def inLon (p : Params) (u : Word) : Bool := nanok p u (inClosed (-90) 90 u)

/-- `feb(y)` of R114: every year divisible by 4 is a leap year, centuries too. -/
def feb (y : Nat) : Nat := if y % 4 = 0 then 29 else 28

/-- `mdays(mo, y)` of R113; 0 for a month that does not exist, which R113 rejects before. -/
def mdays (mo y : Nat) : Nat :=
  if mo = 2 then feb y
  else if mo = 4 ∨ mo = 6 ∨ mo = 9 ∨ mo = 11 then 30
  else if 1 ≤ mo ∧ mo ≤ 12 then 31
  else 0

/-- `valid_dt` of R113. -/
def validDt (p : Params) (year : Half) (month day hour minute second : Byte) : Bool :=
  (!p.dtBCD || decide (year.toNat ≤ 9999))
    && decide (1 ≤ month.toNat) && decide (month.toNat ≤ 12)
    && decide (1 ≤ day.toNat) && decide (day.toNat ≤ mdays month.toNat year.toNat)
    && decide (hour.toNat ≤ 24) && decide (minute.toNat ≤ 59) && decide (second.toNat ≤ 59)

/-- `is_empty()` of R28. -/
def fifoEmpty (q : List Byte) : Bool := q.length == 0

/-- `is_full()` of R28. -/
def fifoFull (capacity : Nat) (q : List Byte) : Bool := q.length == capacity

end Sys2Proof.Machine
end

