-- ==== Sys2Proof/Syntax.lean ====
section
/-! DEFINITION. The instructions: one constructor per row of spec/opcode_table.json (29 host operations,
30_encoding.md R79, and 15 wire commands, R67), and the host request port's record (10_state.md R31). -/

namespace Sys2Proof

/-- One instruction. A host operation's operands are the port fields its format reads (R80); a wire
command's operand is its 8 payload bytes (R65). The names of R110 to R117 are kept: `a` is the first
operand of the selector table, `b` the second. -/
inductive Instr where
  /-- ENC.MOVE_EAST, R102. -/
  | encMoveEast
  /-- ENC.MOVE_WEST, R103. -/
  | encMoveWest
  /-- ENC.MOVE_NORTH, R104. -/
  | encMoveNorth
  /-- ENC.MOVE_SOUTH, R105. -/
  | encMoveSouth
  /-- ENC.STOP_MOTION, R106. -/
  | encStopMotion
  /-- ENC.PARK, R107. -/
  | encPark
  /-- ENC.GET_SITE_LOCATION, R108. -/
  | encGetSiteLocation
  /-- ENC.DISCONNECT, R109. -/
  | encDisconnect
  /-- ENC.GOTO, R110: a = ra, b = dec. -/
  | encGoto (a b : Word)
  /-- ENC.SYNC, R111: a = ra, b = dec. -/
  | encSync (a b : Word)
  /-- ENC.SET_SITE_LOCATION, R112: a = lat, b = lon. -/
  | encSetSiteLocation (a b : Word)
  /-- ENC.SET_DATE_TIME, R115. -/
  | encSetDateTime (year : Half) (month day hour minute second : Byte)
  /-- ENC.SITE_LOCATION_REPORT, R116: a = lat, b = lon. -/
  | encSiteLocationReport (a b : Word)
  /-- ENC.POSITION_REPORT, R117: a = ra, b = dec. -/
  | encPositionReport (a b : Word)
  /-- ENC_MWT.EAST, R118. -/
  | encMwtEast
  /-- ENC_MWT.WEST, R119. -/
  | encMwtWest
  /-- ENC_MWT.NORTH, R120. -/
  | encMwtNorth
  /-- ENC_MWT.SOUTH, R121. -/
  | encMwtSouth
  /-- DEC, R140: `frame_in`. -/
  | dec (frameIn : List Byte)
  /-- FIFO.PUSH, R150. -/
  | fifoPush (byte : Byte)
  /-- FIFO.DRAIN, R151. -/
  | fifoDrain (n : Half)
  /-- FIFO.SNAPSHOT, R152. -/
  | fifoSnapshot
  /-- FIFO.LEN, R153. -/
  | fifoLen
  /-- FIFO.IS_EMPTY, R154. -/
  | fifoIsEmpty
  /-- FIFO.IS_FULL, R155. -/
  | fifoIsFull
  /-- RX_START, R170. -/
  | rxStart
  /-- RX_STOP, R171. -/
  | rxStop
  /-- RX_CYCLE, R172. -/
  | rxCycle
  /-- TX_SEND, R181: `data_in`. -/
  | txSend (dataIn : List Byte)
  /-- WIRE.NULL, id 0x00, R142. -/
  | wireNull (payload : List Byte)
  /-- WIRE.MOVE_EAST, id 0x01, R142. -/
  | wireMoveEast (payload : List Byte)
  /-- WIRE.MOVE_WEST, id 0x02, R142. -/
  | wireMoveWest (payload : List Byte)
  /-- WIRE.MOVE_NORTH, id 0x04, R142. -/
  | wireMoveNorth (payload : List Byte)
  /-- WIRE.MOVE_SOUTH, id 0x08, R142. -/
  | wireMoveSouth (payload : List Byte)
  /-- WIRE.STOP_MOTION, id 0x1D, R142. -/
  | wireStopMotion (payload : List Byte)
  /-- WIRE.PARK, id 0x1E, R142. -/
  | wirePark (payload : List Byte)
  /-- WIRE.GET_SITE_LOCATION, id 0x1F, R142. -/
  | wireGetSiteLocation (payload : List Byte)
  /-- WIRE.DISCONNECT, id 0x22, R142. -/
  | wireDisconnect (payload : List Byte)
  /-- WIRE.GOTO, id 0x23, R142. -/
  | wireGoto (payload : List Byte)
  /-- WIRE.SYNC, id 0x24, R142. -/
  | wireSync (payload : List Byte)
  /-- WIRE.SET_SITE_LOCATION, id 0x25, R142. -/
  | wireSetSiteLocation (payload : List Byte)
  /-- WIRE.SET_DATE_TIME, id 0x26, R142. -/
  | wireSetDateTime (payload : List Byte)
  /-- WIRE.SITE_LOCATION_REPORT, id 0xFE, R141. -/
  | wireSiteLocationReport (payload : List Byte)
  /-- WIRE.POSITION_REPORT, id 0xFF, R141. -/
  | wirePositionReport (payload : List Byte)
  deriving DecidableEq, Repr

/-- One transaction of the host request port: a selector and every operand field (R31). Operands the
selector does not use are ignored, so each has the idle value zero here. -/
structure Request where
  sel : Half
  a : Word := 0
  b : Word := 0
  year : Half := 0
  month : Byte := 0
  day : Byte := 0
  hour : Byte := 0
  minute : Byte := 0
  second : Byte := 0
  byte : Byte := 0
  n : Half := 0
  frameIn : Vector Byte 13 := #v[0, 0, 0, 0, 0, 0, 0, 0, 0, 0, 0, 0, 0]
  dataIn : List Byte := []
  deriving DecidableEq, Repr

end Sys2Proof
end

