-- ==== Sys2Proof/WellFormed.lean ====
section
/-! DEFINITION. The checks on an instruction's operands that its Lean type does not make: DEC takes
exactly 13 bytes (10_state.md R31, 41_decoder.md R140) and a wire command has exactly 8 payload bytes
(30_encoding.md R65). Ranges are no part of this: an operand out of range is E_VALIDATION (R100). -/

namespace Sys2Proof

/-- A frame operand is 13 bytes long (R31, R140). -/
def frameLengthOk (frameIn : List Byte) : Bool := frameIn.length == 13

/-- A payload is 8 bytes long (R65). -/
def payloadLengthOk (payload : List Byte) : Bool := payload.length == 8

/-- An instruction whose operands have the lengths the port and the wire fix. -/
def Instr.wellFormed : Instr → Bool
  | .encMoveEast | .encMoveWest | .encMoveNorth | .encMoveSouth => true
  | .encStopMotion | .encPark | .encGetSiteLocation | .encDisconnect => true
  | .encGoto _ _ | .encSync _ _ | .encSetSiteLocation _ _ => true
  | .encSetDateTime _ _ _ _ _ _ => true
  | .encSiteLocationReport _ _ | .encPositionReport _ _ => true
  | .encMwtEast | .encMwtWest | .encMwtNorth | .encMwtSouth => true
  | .dec frameIn => frameLengthOk frameIn
  | .fifoPush _ | .fifoDrain _ => true
  | .fifoSnapshot | .fifoLen | .fifoIsEmpty | .fifoIsFull => true
  | .rxStart | .rxStop | .rxCycle | .txSend _ => true
  | .wireNull p | .wireMoveEast p | .wireMoveWest p | .wireMoveNorth p | .wireMoveSouth p
  | .wireStopMotion p | .wirePark p | .wireGetSiteLocation p | .wireDisconnect p
  | .wireGoto p | .wireSync p | .wireSetSiteLocation p | .wireSetDateTime p
  | .wireSiteLocationReport p | .wirePositionReport p => payloadLengthOk p

end Sys2Proof
end

