-- ==== Sys2Proof/Decode.lean ====
section
/-! DEFINITION. Decoding, total and rejecting by name: a host request by its selector (30_encoding.md
R79 to R81), a wire frame by its preamble and command id (R65 to R67). The encoder follows, written
from the same two tables. -/

namespace Sys2Proof

/-- `PRE` of R15. -/
def preamble : List Byte := [0x55, 0xAA, 0x01, 0x09]

/-- `FLEN` of R15. -/
def frameLen : Nat := 13

/-- `zeros(k)` of R10. -/
def zeros (k : Nat) : List Byte := List.replicate k 0

/-- The 13 bytes of a frame: preamble, command id, payload (R65). -/
def wireFrame (id : Byte) (payload : List Byte) : List Byte := preamble ++ [id] ++ payload

/-- What an instruction is read from: a transaction of the host request port (R31) or the bytes of a
frame (R65). -/
inductive Encoding where
  | request (r : Request)
  | frame (bytes : List Byte)
  deriving DecidableEq, Repr

/-- Why a request or a byte sequence is no instruction of the table. -/
inductive DecodeError where
  /-- `sel` is not in R79's table (R81). -/
  | illegalSelector (sel : Half)
  /-- The byte sequence is not 13 bytes long (R65, R82). -/
  | notThirteenBytes (length : Nat)
  /-- The first four bytes are not the preamble (R66). -/
  | noPreamble
  /-- One of the 241 unassigned command ids: a frame, but no row of the table (R74). -/
  | unassignedId (id : Byte)
  deriving DecidableEq, Repr

/-- R79's table: each selector with the operands its format reads (R80). -/
def selectorTable : List (Half × (Request → Instr)) :=
  [ (0x1001, fun _ => .encMoveEast),
    (0x1002, fun _ => .encMoveWest),
    (0x1004, fun _ => .encMoveNorth),
    (0x1008, fun _ => .encMoveSouth),
    (0x101D, fun _ => .encStopMotion),
    (0x101E, fun _ => .encPark),
    (0x101F, fun _ => .encGetSiteLocation),
    (0x1022, fun _ => .encDisconnect),
    (0x1023, fun r => .encGoto r.a r.b),
    (0x1024, fun r => .encSync r.a r.b),
    (0x1025, fun r => .encSetSiteLocation r.a r.b),
    (0x1026, fun r => .encSetDateTime r.year r.month r.day r.hour r.minute r.second),
    (0x10FE, fun r => .encSiteLocationReport r.a r.b),
    (0x10FF, fun r => .encPositionReport r.a r.b) ]
  ++
  [ (0x1101, fun _ => .encMwtEast),
    (0x1102, fun _ => .encMwtWest),
    (0x1104, fun _ => .encMwtNorth),
    (0x1108, fun _ => .encMwtSouth),
    (0x2000, fun r => .dec r.frameIn.toList),
    (0x3000, fun r => .fifoPush r.byte),
    (0x3100, fun r => .fifoDrain r.n),
    (0x3200, fun _ => .fifoSnapshot),
    (0x3300, fun _ => .fifoLen),
    (0x3400, fun _ => .fifoIsEmpty),
    (0x3500, fun _ => .fifoIsFull),
    (0x4000, fun _ => .rxStart),
    (0x4100, fun _ => .rxStop),
    (0x4200, fun _ => .rxCycle),
    (0x4300, fun r => .txSend r.dataIn) ]

/-- R67's table: each assigned command id. -/
def wireTable : List (Byte × (List Byte → Instr)) :=
  [ (0x00, .wireNull),
    (0x01, .wireMoveEast),
    (0x02, .wireMoveWest),
    (0x04, .wireMoveNorth),
    (0x08, .wireMoveSouth),
    (0x1D, .wireStopMotion),
    (0x1E, .wirePark),
    (0x1F, .wireGetSiteLocation),
    (0x22, .wireDisconnect),
    (0x23, .wireGoto),
    (0x24, .wireSync),
    (0x25, .wireSetSiteLocation),
    (0x26, .wireSetDateTime),
    (0xFE, .wireSiteLocationReport),
    (0xFF, .wirePositionReport) ]

/-- The operation a host request selects (R79, R81). -/
def decodeRequest (r : Request) : Except DecodeError Instr :=
  match selectorTable.lookup r.sel with
  | some operation => .ok (operation r)
  | none => .error (.illegalSelector r.sel)

/-- The wire command a byte sequence is (R65 to R67, R74). -/
def decodeFrame (bytes : List Byte) : Except DecodeError Instr :=
  if bytes.length ≠ frameLen then .error (.notThirteenBytes bytes.length)
  else if bytes.take 4 ≠ preamble then .error .noPreamble
  else
    match wireTable.lookup (bytes.getD 4 0) with
    | some command => .ok (command (bytes.drop 5))
    | none => .error (.unassignedId (bytes.getD 4 0))

/-- Decoding of either kind. -/
def decode : Encoding → Except DecodeError Instr
  | .request r => decodeRequest r
  | .frame bytes => decodeFrame bytes

/-- 13 bytes on the `frame_in` port; a well-formed operand is carried whole. -/
def frameInOfList (F : List Byte) : Vector Byte 13 :=
  #v[F.getD 0 0, F.getD 1 0, F.getD 2 0, F.getD 3 0, F.getD 4 0, F.getD 5 0, F.getD 6 0,
     F.getD 7 0, F.getD 8 0, F.getD 9 0, F.getD 10 0, F.getD 11 0, F.getD 12 0]

/-- The request or the frame of an instruction (R65, R67, R79, R80). Unused operands are zero. -/
def encode : Instr → Encoding
  | .encMoveEast => .request { sel := 0x1001 }
  | .encMoveWest => .request { sel := 0x1002 }
  | .encMoveNorth => .request { sel := 0x1004 }
  | .encMoveSouth => .request { sel := 0x1008 }
  | .encStopMotion => .request { sel := 0x101D }
  | .encPark => .request { sel := 0x101E }
  | .encGetSiteLocation => .request { sel := 0x101F }
  | .encDisconnect => .request { sel := 0x1022 }
  | .encGoto a b => .request { sel := 0x1023, a := a, b := b }
  | .encSync a b => .request { sel := 0x1024, a := a, b := b }
  | .encSetSiteLocation a b => .request { sel := 0x1025, a := a, b := b }
  | .encSetDateTime year month day hour minute second =>
    .request { sel := 0x1026, year := year, month := month, day := day, hour := hour,
               minute := minute, second := second }
  | .encSiteLocationReport a b => .request { sel := 0x10FE, a := a, b := b }
  | .encPositionReport a b => .request { sel := 0x10FF, a := a, b := b }
  | .encMwtEast => .request { sel := 0x1101 }
  | .encMwtWest => .request { sel := 0x1102 }
  | .encMwtNorth => .request { sel := 0x1104 }
  | .encMwtSouth => .request { sel := 0x1108 }
  | .dec frameIn => .request { sel := 0x2000, frameIn := frameInOfList frameIn }
  | .fifoPush byte => .request { sel := 0x3000, byte := byte }
  | .fifoDrain n => .request { sel := 0x3100, n := n }
  | .fifoSnapshot => .request { sel := 0x3200 }
  | .fifoLen => .request { sel := 0x3300 }
  | .fifoIsEmpty => .request { sel := 0x3400 }
  | .fifoIsFull => .request { sel := 0x3500 }
  | .rxStart => .request { sel := 0x4000 }
  | .rxStop => .request { sel := 0x4100 }
  | .rxCycle => .request { sel := 0x4200 }
  | .txSend dataIn => .request { sel := 0x4300, dataIn := dataIn }
  | .wireNull p => .frame (wireFrame 0x00 p)
  | .wireMoveEast p => .frame (wireFrame 0x01 p)
  | .wireMoveWest p => .frame (wireFrame 0x02 p)
  | .wireMoveNorth p => .frame (wireFrame 0x04 p)
  | .wireMoveSouth p => .frame (wireFrame 0x08 p)
  | .wireStopMotion p => .frame (wireFrame 0x1D p)
  | .wirePark p => .frame (wireFrame 0x1E p)
  | .wireGetSiteLocation p => .frame (wireFrame 0x1F p)
  | .wireDisconnect p => .frame (wireFrame 0x22 p)
  | .wireGoto p => .frame (wireFrame 0x23 p)
  | .wireSync p => .frame (wireFrame 0x24 p)
  | .wireSetSiteLocation p => .frame (wireFrame 0x25 p)
  | .wireSetDateTime p => .frame (wireFrame 0x26 p)
  | .wireSiteLocationReport p => .frame (wireFrame 0xFE p)
  | .wirePositionReport p => .frame (wireFrame 0xFF p)

/-- The bytes of an nbits-bit number, the most significant first, padded with zeros to a frame's 13
bytes: a wire row's match has frame byte 0 most significant (the row's own note). -/
def frameOfTableWord (nbits w : Nat) : List Byte :=
  ((List.range (nbits / 8)).map fun k => BitVec.ofNat 8 (w >>> (8 * (nbits / 8 - 1 - k)))
    ) ++ zeros (frameLen - nbits / 8)

/-- The same bytes with byte 0 least significant, for a caller that counts bits from the first byte. -/
def frameOfTableWordLowFirst (nbits w : Nat) : List Byte :=
  ((List.range (nbits / 8)).map fun k => BitVec.ofNat 8 (w >>> (8 * k))) ++ zeros (frameLen - nbits / 8)

/-- The request or frame that a word of spec/opcode_table.json stands for: a 16-bit selector with zero
operands, or the first bytes of a frame with zeros after them. Assumption log 11. -/
def encodingOfTableWord (nbits w : Nat) : Encoding :=
  if nbits ≤ 16 then .request { sel := BitVec.ofNat 16 w }
  else if (frameOfTableWord nbits w).take 4 = preamble then .frame (frameOfTableWord nbits w)
  else .frame (frameOfTableWordLowFirst nbits w)

/-- The instruction the decoder reads from a table word (none where it rejects the word). -/
def decodeTableWord (nbits w : Nat) : Option Instr :=
  if w < 2 ^ nbits then
    match decode (encodingOfTableWord nbits w) with
    | .ok i => some i
    | .error _ => none
  else none

/-- The row of spec/opcode_table.json an encoding matches on: how many bits the row fixes, and their
value (the selector, or the first five frame bytes with byte 0 most significant). -/
def Encoding.tableWord : Encoding → Nat × Nat
  | .request r => (16, r.sel.toNat)
  | .frame bytes => (40, (bytes.take 5).foldl (fun acc b => acc * 256 + b.toNat) 0)

/-- Each instruction's `match` in spec/opcode_table.json, transcribed a second time. -/
def Instr.tableWord : Instr → Nat × Nat
  | .encMoveEast => (16, 0x1001)
  | .encMoveWest => (16, 0x1002)
  | .encMoveNorth => (16, 0x1004)
  | .encMoveSouth => (16, 0x1008)
  | .encStopMotion => (16, 0x101D)
  | .encPark => (16, 0x101E)
  | .encGetSiteLocation => (16, 0x101F)
  | .encDisconnect => (16, 0x1022)
  | .encGoto _ _ => (16, 0x1023)
  | .encSync _ _ => (16, 0x1024)
  | .encSetSiteLocation _ _ => (16, 0x1025)
  | .encSetDateTime _ _ _ _ _ _ => (16, 0x1026)
  | .encSiteLocationReport _ _ => (16, 0x10FE)
  | .encPositionReport _ _ => (16, 0x10FF)
  | .encMwtEast => (16, 0x1101)
  | .encMwtWest => (16, 0x1102)
  | .encMwtNorth => (16, 0x1104)
  | .encMwtSouth => (16, 0x1108)
  | .dec _ => (16, 0x2000)
  | .fifoPush _ => (16, 0x3000)
  | .fifoDrain _ => (16, 0x3100)
  | .fifoSnapshot => (16, 0x3200)
  | .fifoLen => (16, 0x3300)
  | .fifoIsEmpty => (16, 0x3400)
  | .fifoIsFull => (16, 0x3500)
  | .rxStart => (16, 0x4000)
  | .rxStop => (16, 0x4100)
  | .rxCycle => (16, 0x4200)
  | .txSend _ => (16, 0x4300)
  | .wireNull _ => (40, 0x55AA010900)
  | .wireMoveEast _ => (40, 0x55AA010901)
  | .wireMoveWest _ => (40, 0x55AA010902)
  | .wireMoveNorth _ => (40, 0x55AA010904)
  | .wireMoveSouth _ => (40, 0x55AA010908)
  | .wireStopMotion _ => (40, 0x55AA01091D)
  | .wirePark _ => (40, 0x55AA01091E)
  | .wireGetSiteLocation _ => (40, 0x55AA01091F)
  | .wireDisconnect _ => (40, 0x55AA010922)
  | .wireGoto _ => (40, 0x55AA010923)
  | .wireSync _ => (40, 0x55AA010924)
  | .wireSetSiteLocation _ => (40, 0x55AA010925)
  | .wireSetDateTime _ => (40, 0x55AA010926)
  | .wireSiteLocationReport _ => (40, 0x55AA0109FE)
  | .wirePositionReport _ => (40, 0x55AA0109FF)

end Sys2Proof
end

