-- ==== Sys2Proof/Machine/Operands.lean ====
section
/-! DEFINITION. Operand assembly: the bytes of a float field (00_scope.md R11, 20_memory.md R47), BCD
(R12), the year split (30_encoding.md R78) and the payload layouts (R69 to R72). -/

namespace Sys2Proof.Machine

/-- `le32(u)` of R11. -/
def le32 (u : Word) : List Byte :=
  [u.extractLsb' 0 8, u.extractLsb' 8 8, u.extractLsb' 16 8, u.extractLsb' 24 8]

/-- `be32(u)` of R11. -/
def be32 (u : Word) : List Byte :=
  [u.extractLsb' 24 8, u.extractLsb' 16 8, u.extractLsb' 8 8, u.extractLsb' 0 8]

/-- `f32bytes(u)` of R11. -/
def f32bytes (p : Params) (u : Word) : List Byte := if p.floatLE then le32 u else be32 u

/-- The pattern whose bytes are these, the least significant first. -/
def wordOfBytes (b0 b1 b2 b3 : Byte) : Word :=
  BitVec.ofNat 32 (b0.toNat + 2 ^ 8 * b1.toNat + 2 ^ 16 * b2.toNat + 2 ^ 24 * b3.toNat)

/-- `f32from(b0, b1, b2, b3)` of R11, the inverse of `f32bytes`. -/
def f32from (p : Params) (b0 b1 b2 b3 : Byte) : Word :=
  if p.floatLE then wordOfBytes b0 b1 b2 b3 else wordOfBytes b3 b2 b1 b0

/-- `bcd(v)` of R12: the tens digit in the high nibble, the units digit in the low one. -/
def bcd (v : Nat) : Byte := BitVec.ofNat 8 (((v / 10) <<< 4) ||| (v % 10))

/-- `dtbyte(v)` of R12, R77. -/
def dtbyte (p : Params) (v : Byte) : Byte := if p.dtBCD then bcd v.toNat else v

/-- `yhi(year)` of R78. -/
def yhi (p : Params) (year : Half) : Byte :=
  if p.dtBCD then bcd (year.toNat / 100) else year.extractLsb' 8 8

/-- `ylo(year)` of R78. -/
def ylo (p : Params) (year : Half) : Byte :=
  if p.dtBCD then bcd (year.toNat % 100) else year.extractLsb' 0 8

/-- The zero layout of R69. -/
def zeroPayload : List Byte := zeros 8

/-- The two-float layout of R70: field A, then field B. -/
def twoFloatPayload (p : Params) (fieldA fieldB : Word) : List Byte :=
  f32bytes p fieldA ++ f32bytes p fieldB

/-- The date/time layout of R71. -/
def dateTimePayload (p : Params) (year : Half) (month day hour minute second : Byte) : List Byte :=
  [yhi p year, ylo p year, dtbyte p month, dtbyte p day, dtbyte p hour, dtbyte p minute,
   dtbyte p second, 0x00]

/-- The move-while-tracking layout of R72. -/
def moveWhileTrackingPayload : List Byte := [0xC8, 0x00, 0x00, 0x00, 0xC8, 0x00, 0x00, 0x00]

end Sys2Proof.Machine
end

