-- ==== Sys2Proof/Machine/State.lean ====
section
/-! DEFINITION. The block's state as plain data (10_state.md R20 to R37), the records of its ports, the
reasons a step can stop, and the state after reset (R35). -/

namespace Sys2Proof.Machine

/-- No fault exists: "the block has no traps" and every failure is a status on a response
(60_exceptions.md R200, R211). Nobody raises one. -/
inductive Fault where
  deriving DecidableEq, Repr

/-- Why a step is refused. -/
inductive Refusal where
  /-- Raised by exec's arm of an instruction that has no meaning yet (none is left). Safe: the model stops. -/
  | notModelled (mnemonic : String)
  /-- Raised by a reset input while a receive cycle or a host call is in progress: "a model gives no
  meaning to a reset in the middle of an operation and refuses it" (70_reset_and_hazards.md R231). Safe. -/
  | resetDuringOperation
  deriving DecidableEq, Repr

/-- `rx_phase` (R20, R22). -/
inductive RxPhase where
  | idle
  | ingest
  | extract
  deriving DecidableEq, Repr

/-- The status codes of 60_exceptions.md R201. -/
inductive Status where
  | ok
  | eValidation
  | eTransport
  | eUnderrun
  | eNoframe
  | eIllegalOp
  deriving DecidableEq, Repr

/-- The decoder's classification (41_decoder.md R140). -/
inductive DecKind where
  | position
  | site
  | unhandled
  deriving DecidableEq, Repr

/-- `dec_out` of 10_state.md R32. -/
structure DecOut where
  kind : DecKind
  id : Byte
  payload : List Byte
  fa : Word
  fb : Word
  deriving DecidableEq, Repr

/-- The result field of a response (R32). -/
inductive Result where
  | none
  | frameOut (bytes : List Byte)
  | decOut (d : DecOut)
  | flag (b : Bool)
  | len (n : Half)
  | snap (bytes : List Byte)
  deriving DecidableEq, Repr

/-- One record of the host response port (R32). -/
structure Response where
  status : Status
  result : Result
  deriving DecidableEq, Repr

/-- The kind of an event (R34). -/
inductive EventKind where
  | pos
  | site
  deriving DecidableEq, Repr

/-- `EVT(kind, a, b)` of R34. -/
structure Event where
  kind : EventKind
  a : Word
  b : Word
  deriving DecidableEq, Repr

/-- A host call whose response is still owed. -/
inductive Waiter where
  /-- An RX_CYCLE whose cycle is in progress. -/
  | cycle
  /-- An RX_STOP waiting for the halt; `tookEffect` is the flag it will return (43_framer.md R171). -/
  | stop (tookEffect : Bool)
  deriving DecidableEq, Repr

/-- What the outside world does next (R31, R33, R183, R231). -/
inductive Input where
  /-- A host request reaches the port. -/
  | request (r : Request)
  /-- A poll tick: the receive agent makes a move it has enabled; `lastCycle` is its choice when a stop
  is pending (43_framer.md R182, R183). -/
  | agent (lastCycle : Bool)
  /-- The transport settles its next answer to `bytes_available()`. -/
  | answerAvail (n : Nat)
  /-- The transport settles its next answers to `read_byte()`. -/
  | answerReads (rs : List (Option Byte))
  /-- The transport settles its next answer to `write(S)`. -/
  | answerWrite (ok : Bool)
  /-- Reset is applied (R230, R231). -/
  | reset
  deriving DecidableEq, Repr

/-- The whole state. The first group is the spec's (R20, R34, R7); the second records the outputs; the
third is the model's own bookkeeping (INVENTORY.md, '## State'). -/
structure State where
  /-- The implementation parameters (00_scope.md R7), never written (R230). -/
  cfg : Params
  /-- `Q`: the FIFO's contents, oldest byte first (R23). -/
  q : List Byte
  /-- `rx_running` (R25). -/
  rxRunning : Bool
  /-- `rx_stop_pending` (R26). -/
  rxStopPending : Bool
  /-- `rx_phase` (R20, R22). -/
  rxPhase : RxPhase
  /-- `rx_appended` (R20). -/
  rxAppended : Bool
  /-- The event history, oldest first (R34). -/
  events : List Event
  /-- The responses given so far, oldest first (R32). Assumption log 2. -/
  responses : List Response
  /-- The byte sequences handed to `T.write` so far, oldest first (R33). Assumption log 2. -/
  sent : List (List Byte)
  /-- The host calls whose response is still owed, oldest first. Assumption log 6. -/
  waiting : List Waiter
  /-- The cycle in progress is the last one of 43_framer.md R182. Assumption log 5. -/
  haltAfter : Bool
  /-- What the outside world does next, soonest first. Assumption log 4. -/
  agenda : List Input
  /-- The transport's settled answers to `bytes_available()`, next first. Assumption log 3. -/
  availAnswers : List Nat
  /-- The transport's settled answers to `read_byte()`, next first. Assumption log 3. -/
  readAnswers : List (Option Byte)
  /-- The transport's settled answers to `write(S)`, next first. Assumption log 3. -/
  writeAnswers : List Bool
  /-- How many free draws were taken. Assumption log 3. -/
  draws : Nat
  deriving DecidableEq, Repr

/-- The state after reset (R35, R230), with the reference parameters (R7) and, in the model's own
fields, nothing (assumption log 1, 2, 3, 4, 5, 6). -/
def State.reset : State :=
  { cfg := Params.reference
    q := []
    rxRunning := false
    rxStopPending := false
    rxPhase := .idle
    rxAppended := false
    events := []
    responses := []
    sent := []
    waiting := []
    haltAfter := false
    agenda := []
    availAnswers := []
    readAnswers := []
    writeAnswers := []
    draws := 0 }

end Sys2Proof.Machine
end

