-- ==== Sys2Proof/Machine/Ops.lean ====
section
/-! DEFINITION. The operations that several meanings share: responding and raising a status
(60_exceptions.md R200), the FIFO's two mutators (42_fifo.md R150, R151), decoding a frame (41_decoder.md
R140), and the parts of the receive cycle (43_framer.md R172 to R182). -/

namespace Sys2Proof.Machine

/-! ### Ports -/

/-- The 8-bit code of a status (R201). -/
def Status.code : Status → Byte
  | .ok => 0x00
  | .eValidation => 0x01
  | .eTransport => 0x02
  | .eUnderrun => 0x03
  | .eNoframe => 0x04
  | .eIllegalOp => 0x05

/-- `return (status, result)`: one record on the response port (00_scope.md R13). -/
def respond (status : Status) (result : Result) (s : State) : State :=
  { s with responses := s.responses ++ [{ status := status, result := result }] }

/-- `raise E_X`: a status, no result and no state written (R13, R200). It stands where another machine
takes an exception (R211). -/
def raiseStatus (status : Status) (s : State) : State := respond status .none s

/-- `emit EVT(kind, a, b)` (R13, R34). -/
def emit (e : Event) (s : State) : State := { s with events := s.events ++ [e] }

/-- What a request with a selector outside the table does (30_encoding.md R81, R205). -/
def illegalOp (s : State) : State := raiseStatus .eIllegalOp s

/-! ### The transport's answers -/

/-- The answer to `T.bytes_available()`: the next settled one, else a free draw (R33, R214). -/
def drawAvail (s : State) : Nat × State :=
  match s.availAnswers with
  | n :: rest => (n, { s with availAnswers := rest })
  | [] => (Config.freeAvail s.draws, { s with draws := s.draws + 1 })

/-- The answer to `T.write(S)`: the next settled one, else a free draw (R33, R214). -/
def drawWrite (s : State) : Bool × State :=
  match s.writeAnswers with
  | ok :: rest => (ok, { s with writeAnswers := rest })
  | [] => (Config.freeWrite s.draws, { s with draws := s.draws + 1 })

/-- `T.write(S)`: the bytes leave the block whatever the answer is (R33). -/
def transportWrite (bytes : List Byte) (s : State) : Bool × State :=
  drawWrite { s with sent := s.sent ++ [bytes] }

/-! ### The encoder's common procedure -/

/-- `encode(cmd, valid, payload)` of 40_encoder.md R100. -/
def encodeFrame (cmd : Byte) (valid : Bool) (payload : List Byte) (s : State) : State :=
  if valid then respond .ok (.frameOut (wireFrame cmd payload)) s else raiseStatus .eValidation s

/-! ### The FIFO -/

/-- The FIFO's push: the contents after it, and whether the byte was accepted (42_fifo.md R150). -/
def pushByte (capacity : Nat) (q : List Byte) (b : Byte) : List Byte × Bool :=
  if q.length < capacity then (q ++ [b], true) else (q, false)

/-- The FIFO's drain: the contents after it, or none where `n > |Q|` (R151). -/
def drainBytes (q : List Byte) (n : Nat) : Option (List Byte) :=
  if n > q.length then none else some (q.drop n)

/-- A FIFO-port request: E_ILLEGAL_OP while the receive agent runs, before any check of its own
(R157, R208). -/
def fifoPort (operation : State → State) (s : State) : State :=
  if s.rxRunning then illegalOp s else operation s

/-! ### The decoder -/

/-- The classification of a command id (R141, R142). -/
def decKind (id : Byte) : DecKind :=
  if id = 0xFF then .position else if id = 0xFE then .site else .unhandled

/-- `DEC(F)` of R140; none is E_NOFRAME. -/
def decFrame (p : Params) (F : List Byte) : Option DecOut :=
  if F.take 4 ≠ preamble then none
  else some
    { kind := decKind (F.getD 4 0)
      id := F.getD 4 0
      payload := (F.drop 5).take 8
      fa := f32from p (F.getD 5 0) (F.getD 6 0) (F.getD 7 0) (F.getD 8 0)
      fb := f32from p (F.getD 9 0) (F.getD 10 0) (F.getD 11 0) (F.getD 12 0) }

/-! ### Extraction -/

/-- `find_preamble(S)` of 43_framer.md R174: the first index at which the preamble stands. -/
def findPreamble : List Byte → Option Nat
  | [] => none
  | b :: rest => if (b :: rest).take 4 = preamble then some 0 else (findPreamble rest).map (· + 1)

/-- R175: where the frame to extract starts, or none where nothing is extracted (R178). Only the first
preamble counts. -/
def frameStart (S : List Byte) : Option Nat :=
  match findPreamble S with
  | none => none
  | some i => if frameLen ≤ S.length - i then some i else none

/-- The 13 bytes from an index. -/
def frameAt (S : List Byte) (i : Nat) : List Byte := (S.drop i).take frameLen

/-- R176: decode a frame and emit its event, if its id is a report's. -/
def dispatchFrame (F : List Byte) (s : State) : State :=
  match decFrame s.cfg F with
  | none => s
  | some d =>
    match d.kind with
    | .site => emit { kind := .site, a := d.fa, b := d.fb } s
    | .position => emit { kind := .pos, a := d.fa, b := d.fb } s
    | .unhandled => s

/-- R177: drop everything up to the end of the frame that stands first. -/
def discardFrame (s : State) : State :=
  match frameStart s.q with
  | none => s
  | some i =>
    match drainBytes s.q (i + frameLen) with
    | none => s
    | some q => { s with q := q }

/-- What the framer does with a frame it extracted: dispatch, then discard (R176, R177). -/
def consumeFrame (F : List Byte) (s : State) : State := discardFrame (dispatchFrame F s)

/-- EXTRACT (R174 to R178): at most one frame (R179). -/
def extract (s : State) : State :=
  match frameStart s.q with
  | none => s
  | some i => consumeFrame (frameAt s.q i) s

/-! ### The end of a cycle and the halt -/

/-- The calls that wait for the cycle in progress. -/
def Waiter.isCycle : Waiter → Bool
  | .cycle => true
  | .stop _ => false

/-- The response a waiting call gets: RX_CYCLE has no result field (10_state.md R32), RX_STOP returns
whether it took effect (43_framer.md R171). -/
def Waiter.response : Waiter → Response
  | .cycle => { status := .ok, result := .none }
  | .stop tookEffect => { status := .ok, result := .flag tookEffect }

/-- Answer the RX_CYCLE calls that wait for the cycle that ends. -/
def answerCycles (s : State) : State :=
  { s with
    responses := s.responses ++ (s.waiting.filter Waiter.isCycle).map Waiter.response
    waiting := s.waiting.filter fun w => !w.isCycle }

/-- HALT of 43_framer.md R182; every waiting RX_STOP is answered (R171). -/
def halt (s : State) : State :=
  { s with
    rxRunning := false
    rxStopPending := false
    haltAfter := false
    responses := s.responses ++ (s.waiting.filter fun w => !w.isCycle).map Waiter.response
    waiting := s.waiting.filter Waiter.isCycle }

/-- The rest of R172's body after INGEST: EXTRACT if a byte was appended, then IDLE; at R182's last
cycle, HALT at once. -/
def finishCycle (s : State) : State :=
  let s1 := { s with rxPhase := .extract }
  let s2 := if s1.rxAppended then extract s1 else s1
  let s3 := answerCycles { s2 with rxPhase := .idle, rxAppended := false }
  if s3.haltAfter then halt s3 else s3

/-! ### INGEST -/

/-- What INGEST's loop has done when it ends, or when the settled answers run out. -/
structure Ingested where
  q : List Byte
  appended : Bool
  rest : List (Option Byte)
  ended : Bool
  deriving DecidableEq, Repr

/-- INGEST's loop of 43_framer.md R173 over the settled answers: only None ends it. -/
def ingestLoop (capacity : Nat) : List (Option Byte) → List Byte → Bool → Ingested
  | [], q, appended => { q := q, appended := appended, rest := [], ended := false }
  | none :: rest, q, appended => { q := q, appended := appended, rest := rest, ended := true }
  | some b :: rest, q, appended =>
    ingestLoop capacity rest (pushByte capacity q b).1 (appended || (pushByte capacity q b).2)

/-- The loop as far as the settled answers go; if None ended it, the rest of the cycle follows in the
same step, else the cycle stays in INGEST with a read outstanding (R239, assumption log 5). -/
def ingest (s : State) : State :=
  let r := ingestLoop s.cfg.capacity s.readAnswers s.q s.rxAppended
  let s1 := { s with q := r.q, rxAppended := r.appended, readAnswers := r.rest }
  if r.ended then finishCycle s1 else s1

/-- A cycle in INGEST goes on: over the settled answers, or by one free draw (R33, R173). -/
def resumeIngest (s : State) : State :=
  match s.readAnswers with
  | _ :: _ => ingest s
  | [] => ingest { s with readAnswers := [Config.freeRead s.draws], draws := s.draws + 1 }

/-- The body of RX_CYCLE (R172): INGEST asks for the count and compares it with 0 only (R173). -/
def runCycle (s : State) : State :=
  let d := drawAvail { s with rxPhase := .ingest, rxAppended := false }
  if d.1 > 0 then ingest d.2 else finishCycle d.2

/-! ### The receive agent -/

/-- The receive agent's move (R182, R183): go on with a cycle in progress; idle, one cycle per tick while
no stop is pending; idle with a stop pending, HALT or the last cycle, as `lastCycle` chooses; nothing
while `rx_running = 0`. -/
def agentStep (lastCycle : Bool) (s : State) : State :=
  match s.rxPhase with
  | .ingest => resumeIngest s
  | .extract => finishCycle s
  | .idle =>
    if s.rxRunning then
      if s.rxStopPending then
        if lastCycle then runCycle { s with haltAfter := true } else halt s
      else runCycle s
    else s

/-- The receive agent's move where nothing outside settles its choice: R182's choice is a free draw. -/
def agentFreeStep (s : State) : State :=
  if s.rxPhase = .idle ∧ s.rxRunning = true ∧ s.rxStopPending = true then
    agentStep (Config.freeLastCycle s.draws) { s with draws := s.draws + 1 }
  else agentStep false s

/-- A request stays at the port: it is taken again at the next step (assumption log 7). -/
def holdRequest (r : Request) (s : State) : State := { s with agenda := .request r :: s.agenda }

/-! ### Reset -/

/-- No receive cycle in progress and no host request outstanding (70_reset_and_hazards.md R231). -/
abbrev Quiescent (s : State) : Prop := s.rxPhase = .idle ∧ s.waiting = []

/-- Reset: every component at R35's value, the parameters kept (R230); what the outside world is about to
do is not the block's state (R37). -/
def resetBlock (s : State) : State :=
  { State.reset with
    cfg := s.cfg
    agenda := s.agenda
    availAnswers := s.availAnswers
    readAnswers := s.readAnswers
    writeAnswers := s.writeAnswers
    draws := s.draws }

/-! ### Inputs that are no request -/

/-- The transport settles an answer. -/
def settleAvail (n : Nat) (s : State) : State := { s with availAnswers := s.availAnswers ++ [n] }

/-- The transport settles answers to reads. -/
def settleReads (rs : List (Option Byte)) (s : State) : State :=
  { s with readAnswers := s.readAnswers ++ rs }

/-- The transport settles an answer to a write. -/
def settleWrite (ok : Bool) (s : State) : State := { s with writeAnswers := s.writeAnswers ++ [ok] }

/-- A reset input (R230, R231). -/
def applyReset (s : State) : Host.Outcome State Fault Refusal :=
  if Quiescent s then .next (resetBlock s) else .refused .resetDuringOperation

/-! ### Placing an instruction where the next step takes it -/

/-- A request at the head of the agenda. -/
def placeRequest (r : Request) (s : State) : State := { s with agenda := .request r :: s.agenda }

/-- A frame alone in the FIFO, and the running agent at EXTRACT with a byte appended, its move next. -/
def placeFrame (bytes : List Byte) (s : State) : State :=
  { s with q := bytes, rxRunning := true, rxPhase := .extract, rxAppended := true,
           agenda := .agent false :: s.agenda }

/-- An encoding where the next step takes it. -/
def placeEncoding (e : Encoding) (s : State) : State :=
  match e with
  | .request r => placeRequest r s
  | .frame bytes => placeFrame bytes s

end Sys2Proof.Machine
end

