-- ==== Sys2Proof/Machine/Decoder.lean ====
section
/-! DEFINITION. The decoder's operation on the host port: DEC (41_decoder.md R140 to R143). -/

namespace Sys2Proof.Machine

/-- DEC, R140: E_NOFRAME where the first four bytes are not the preamble; no range is checked (R143). -/
def execDec (frameIn : List Byte) (s : State) : Host.Outcome State Fault Refusal :=
  .next (
    match decFrame s.cfg frameIn with
    | some d => respond .ok (.decOut d) s
    | none => raiseStatus .eNoframe s)

end Sys2Proof.Machine
end

