-- ==== Sys2Proof/Machine/Encoder.lean ====
section
/-! DEFINITION. The encoder's operations: ENC and ENC_MWT (40_encoder.md R102 to R121). Each is a pure
function of its operands and the parameters whose only trace is its response (R122). -/

namespace Sys2Proof.Machine

/-- ENC.MOVE_EAST, R102. -/
def execEncMoveEast (s : State) : Host.Outcome State Fault Refusal :=
  .next (encodeFrame 0x01 true zeroPayload s)

/-- ENC.MOVE_WEST, R103. -/
def execEncMoveWest (s : State) : Host.Outcome State Fault Refusal :=
  .next (encodeFrame 0x02 true zeroPayload s)

/-- ENC.MOVE_NORTH, R104. -/
def execEncMoveNorth (s : State) : Host.Outcome State Fault Refusal :=
  .next (encodeFrame 0x04 true zeroPayload s)

/-- ENC.MOVE_SOUTH, R105. -/
def execEncMoveSouth (s : State) : Host.Outcome State Fault Refusal :=
  .next (encodeFrame 0x08 true zeroPayload s)

/-- ENC.STOP_MOTION, R106. -/
def execEncStopMotion (s : State) : Host.Outcome State Fault Refusal :=
  .next (encodeFrame 0x1D true zeroPayload s)

/-- ENC.PARK, R107. -/
def execEncPark (s : State) : Host.Outcome State Fault Refusal :=
  .next (encodeFrame 0x1E true zeroPayload s)

/-- ENC.GET_SITE_LOCATION, R108. -/
def execEncGetSiteLocation (s : State) : Host.Outcome State Fault Refusal :=
  .next (encodeFrame 0x1F true zeroPayload s)

/-- ENC.DISCONNECT, R109. -/
def execEncDisconnect (s : State) : Host.Outcome State Fault Refusal :=
  .next (encodeFrame 0x22 true zeroPayload s)

/-- ENC.GOTO, R110: a = ra, b = dec; ra then dec on the wire. -/
def execEncGoto (a b : Word) (s : State) : Host.Outcome State Fault Refusal :=
  .next (encodeFrame 0x23 (inRa s.cfg a && inDec s.cfg b) (twoFloatPayload s.cfg a b) s)

/-- ENC.SYNC, R111: a = ra, b = dec; ra then dec on the wire. -/
def execEncSync (a b : Word) (s : State) : Host.Outcome State Fault Refusal :=
  .next (encodeFrame 0x24 (inRa s.cfg a && inDec s.cfg b) (twoFloatPayload s.cfg a b) s)

/-- ENC.SET_SITE_LOCATION, R112: a = lat, b = lon; lon then lat on the wire. -/
def execEncSetSiteLocation (a b : Word) (s : State) : Host.Outcome State Fault Refusal :=
  .next (encodeFrame 0x25 (inLat s.cfg a && inLon s.cfg b) (twoFloatPayload s.cfg b a) s)

/-- ENC.SET_DATE_TIME, R115. -/
def execEncSetDateTime (year : Half) (month day hour minute second : Byte) (s : State) :
    Host.Outcome State Fault Refusal :=
  .next (encodeFrame 0x26 (validDt s.cfg year month day hour minute second)
    (dateTimePayload s.cfg year month day hour minute second) s)

/-- ENC.SITE_LOCATION_REPORT, R116: a = lat, b = lon; lat then lon on the wire. -/
def execEncSiteLocationReport (a b : Word) (s : State) : Host.Outcome State Fault Refusal :=
  .next (encodeFrame 0xFE (inLat s.cfg a && inLon s.cfg b) (twoFloatPayload s.cfg a b) s)

/-- ENC.POSITION_REPORT, R117: a = ra, b = dec; ra then dec on the wire. -/
def execEncPositionReport (a b : Word) (s : State) : Host.Outcome State Fault Refusal :=
  .next (encodeFrame 0xFF (inRa s.cfg a && inDec s.cfg b) (twoFloatPayload s.cfg a b) s)

/-- ENC_MWT.EAST, R118. -/
def execEncMwtEast (s : State) : Host.Outcome State Fault Refusal :=
  .next (encodeFrame 0x01 true moveWhileTrackingPayload s)

/-- ENC_MWT.WEST, R119. -/
def execEncMwtWest (s : State) : Host.Outcome State Fault Refusal :=
  .next (encodeFrame 0x02 true moveWhileTrackingPayload s)

/-- ENC_MWT.NORTH, R120. -/
def execEncMwtNorth (s : State) : Host.Outcome State Fault Refusal :=
  .next (encodeFrame 0x04 true moveWhileTrackingPayload s)

/-- ENC_MWT.SOUTH, R121. -/
def execEncMwtSouth (s : State) : Host.Outcome State Fault Refusal :=
  .next (encodeFrame 0x08 true moveWhileTrackingPayload s)

end Sys2Proof.Machine
end

