-- ==== Sys2Proof/Machine/Fifo.lean ====
section
/-! DEFINITION. The FIFO port's operations (42_fifo.md R150 to R155), each E_ILLEGAL_OP while the receive
agent runs (R157). -/

namespace Sys2Proof.Machine

/-- FIFO.PUSH, R150: the flag says whether the byte was accepted; a refused push is no error. -/
def execFifoPush (byte : Byte) (s : State) : Host.Outcome State Fault Refusal :=
  .next (fifoPort (fun s =>
    respond .ok (.flag (pushByte s.cfg.capacity s.q byte).2)
      { s with q := (pushByte s.cfg.capacity s.q byte).1 }) s)

/-- FIFO.DRAIN, R151: E_UNDERRUN where `n > |Q|`, with `Q` unchanged. -/
def execFifoDrain (n : Half) (s : State) : Host.Outcome State Fault Refusal :=
  .next (fifoPort (fun s =>
    match drainBytes s.q n.toNat with
    | some q => respond .ok .none { s with q := q }
    | none => raiseStatus .eUnderrun s) s)

/-- FIFO.SNAPSHOT, R152. -/
def execFifoSnapshot (s : State) : Host.Outcome State Fault Refusal :=
  .next (fifoPort (fun s => respond .ok (.snap s.q) s) s)

/-- FIFO.LEN, R153; `|Q| <= N <= 65535`, so 16 bits hold it. -/
def execFifoLen (s : State) : Host.Outcome State Fault Refusal :=
  .next (fifoPort (fun s => respond .ok (.len (BitVec.ofNat 16 s.q.length)) s) s)

/-- FIFO.IS_EMPTY, R154. -/
def execFifoIsEmpty (s : State) : Host.Outcome State Fault Refusal :=
  .next (fifoPort (fun s => respond .ok (.flag (fifoEmpty s.q)) s) s)

/-- FIFO.IS_FULL, R155. -/
def execFifoIsFull (s : State) : Host.Outcome State Fault Refusal :=
  .next (fifoPort (fun s => respond .ok (.flag (fifoFull s.cfg.capacity s.q)) s) s)

end Sys2Proof.Machine
end

