-- ==== Sys2Proof/Machine/Framer.lean ====
section
/-! DEFINITION. The framer's operations on the host port: RX_START, RX_STOP, RX_CYCLE and TX_SEND
(43_framer.md R170 to R172, R181). -/

namespace Sys2Proof.Machine

/-- RX_START, R170: no effect if the agent already runs; `Q` is kept. -/
def execRxStart (s : State) : Host.Outcome State Fault Refusal :=
  .next (
    if s.rxRunning then respond .ok (.flag false) s
    else respond .ok (.flag true)
      { s with rxRunning := true, rxStopPending := false, rxPhase := .idle, rxAppended := false })

/-- RX_STOP, R171: with nothing running it returns at once; otherwise it waits for the halt, and only the
first one takes effect. The waiting calls are answered by `halt` (R182; assumption log 6). -/
def execRxStop (s : State) : Host.Outcome State Fault Refusal :=
  .next (
    if s.rxRunning then
      if s.rxStopPending then { s with waiting := s.waiting ++ [.stop false] }
      else { s with rxStopPending := true, waiting := s.waiting ++ [.stop true] }
    else respond .ok (.flag false) s)

/-- RX_CYCLE, R172: no effect while stopped or stopping. Issued during a cycle it is not enabled (R183):
it stays at the port and the agent goes on (assumption log 7). -/
def execRxCycle (s : State) : Host.Outcome State Fault Refusal :=
  .next (
    if s.rxRunning = false ∨ s.rxStopPending = true then respond .ok .none s
    else if s.rxPhase = .idle then runCycle { s with waiting := s.waiting ++ [.cycle] }
    else holdRequest { sel := 0x4200 } (agentStep false s))

/-- TX_SEND, R181: one `T.write`, whose answer is the status. -/
def execTxSend (dataIn : List Byte) (s : State) : Host.Outcome State Fault Refusal :=
  .next (
    if (transportWrite dataIn s).1 then respond .ok .none (transportWrite dataIn s).2
    else raiseStatus .eTransport (transportWrite dataIn s).2)

end Sys2Proof.Machine
end

