-- ==== Sys2Proof/Machine/Wire.lean ====
section
/-! DEFINITION. The wire commands (30_encoding.md R67). A wire command runs when the framer has extracted
its frame from the FIFO: it is decoded (41_decoder.md R141, R142), dispatched (43_framer.md R176) and
discarded with everything before it (R177). Assumption log 9. -/

namespace Sys2Proof.Machine

/-- WIRE.NULL, id 0x00, R142: unhandled, consumed without an event. -/
def execWireNull (payload : List Byte) (s : State) : Host.Outcome State Fault Refusal :=
  .next (consumeFrame (wireFrame 0x00 payload) s)

/-- WIRE.MOVE_EAST, id 0x01, R142: unhandled, consumed without an event. -/
def execWireMoveEast (payload : List Byte) (s : State) : Host.Outcome State Fault Refusal :=
  .next (consumeFrame (wireFrame 0x01 payload) s)

/-- WIRE.MOVE_WEST, id 0x02, R142: unhandled, consumed without an event. -/
def execWireMoveWest (payload : List Byte) (s : State) : Host.Outcome State Fault Refusal :=
  .next (consumeFrame (wireFrame 0x02 payload) s)

/-- WIRE.MOVE_NORTH, id 0x04, R142: unhandled, consumed without an event. -/
def execWireMoveNorth (payload : List Byte) (s : State) : Host.Outcome State Fault Refusal :=
  .next (consumeFrame (wireFrame 0x04 payload) s)

/-- WIRE.MOVE_SOUTH, id 0x08, R142: unhandled, consumed without an event. -/
def execWireMoveSouth (payload : List Byte) (s : State) : Host.Outcome State Fault Refusal :=
  .next (consumeFrame (wireFrame 0x08 payload) s)

/-- WIRE.STOP_MOTION, id 0x1D, R142: unhandled, consumed without an event. -/
def execWireStopMotion (payload : List Byte) (s : State) : Host.Outcome State Fault Refusal :=
  .next (consumeFrame (wireFrame 0x1D payload) s)

/-- WIRE.PARK, id 0x1E, R142: unhandled, consumed without an event. -/
def execWirePark (payload : List Byte) (s : State) : Host.Outcome State Fault Refusal :=
  .next (consumeFrame (wireFrame 0x1E payload) s)

/-- WIRE.GET_SITE_LOCATION, id 0x1F, R142: unhandled, consumed without an event. -/
def execWireGetSiteLocation (payload : List Byte) (s : State) : Host.Outcome State Fault Refusal :=
  .next (consumeFrame (wireFrame 0x1F payload) s)

/-- WIRE.DISCONNECT, id 0x22, R142: unhandled, consumed without an event. -/
def execWireDisconnect (payload : List Byte) (s : State) : Host.Outcome State Fault Refusal :=
  .next (consumeFrame (wireFrame 0x22 payload) s)

/-- WIRE.GOTO, id 0x23, R142: unhandled, consumed without an event. -/
def execWireGoto (payload : List Byte) (s : State) : Host.Outcome State Fault Refusal :=
  .next (consumeFrame (wireFrame 0x23 payload) s)

/-- WIRE.SYNC, id 0x24, R142: unhandled, consumed without an event. -/
def execWireSync (payload : List Byte) (s : State) : Host.Outcome State Fault Refusal :=
  .next (consumeFrame (wireFrame 0x24 payload) s)

/-- WIRE.SET_SITE_LOCATION, id 0x25, R142: unhandled, consumed without an event. -/
def execWireSetSiteLocation (payload : List Byte) (s : State) : Host.Outcome State Fault Refusal :=
  .next (consumeFrame (wireFrame 0x25 payload) s)

/-- WIRE.SET_DATE_TIME, id 0x26, R142: unhandled, consumed without an event. -/
def execWireSetDateTime (payload : List Byte) (s : State) : Host.Outcome State Fault Refusal :=
  .next (consumeFrame (wireFrame 0x26 payload) s)

/-- WIRE.SITE_LOCATION_REPORT, id 0xFE, R141: it raises its event. -/
def execWireSiteLocationReport (payload : List Byte) (s : State) : Host.Outcome State Fault Refusal :=
  .next (consumeFrame (wireFrame 0xFE payload) s)

/-- WIRE.POSITION_REPORT, id 0xFF, R141: it raises its event. -/
def execWirePositionReport (payload : List Byte) (s : State) : Host.Outcome State Fault Refusal :=
  .next (consumeFrame (wireFrame 0xFF payload) s)

end Sys2Proof.Machine
end

