-- ==== Sys2Proof/Machine/Dispatch.lean ====
section
/-! DEFINITION. The meaning of every instruction, one arm each. -/

namespace Sys2Proof.Machine

def exec (i : Instr) (s : State) : Host.Outcome State Fault Refusal :=
  match i with
  | .encMoveEast => Sys2Proof.Machine.execEncMoveEast s
  | .encMoveWest => Sys2Proof.Machine.execEncMoveWest s
  | .encMoveNorth => Sys2Proof.Machine.execEncMoveNorth s
  | .encMoveSouth => Sys2Proof.Machine.execEncMoveSouth s
  | .encStopMotion => Sys2Proof.Machine.execEncStopMotion s
  | .encPark => Sys2Proof.Machine.execEncPark s
  | .encGetSiteLocation => Sys2Proof.Machine.execEncGetSiteLocation s
  | .encDisconnect => Sys2Proof.Machine.execEncDisconnect s
  | .encGoto a b => Sys2Proof.Machine.execEncGoto a b s
  | .encSync a b => Sys2Proof.Machine.execEncSync a b s
  | .encSetSiteLocation a b => Sys2Proof.Machine.execEncSetSiteLocation a b s
  | .encSetDateTime year month day hour minute second => Sys2Proof.Machine.execEncSetDateTime year month day hour minute second s
  | .encSiteLocationReport a b => Sys2Proof.Machine.execEncSiteLocationReport a b s
  | .encPositionReport a b => Sys2Proof.Machine.execEncPositionReport a b s
  | .encMwtEast => Sys2Proof.Machine.execEncMwtEast s
  | .encMwtWest => Sys2Proof.Machine.execEncMwtWest s
  | .encMwtNorth => Sys2Proof.Machine.execEncMwtNorth s
  | .encMwtSouth => Sys2Proof.Machine.execEncMwtSouth s
  | .dec frameIn => Sys2Proof.Machine.execDec frameIn s
  | .fifoPush byte => Sys2Proof.Machine.execFifoPush byte s
  | .fifoDrain n => Sys2Proof.Machine.execFifoDrain n s
  | .fifoSnapshot => Sys2Proof.Machine.execFifoSnapshot s
  | .fifoLen => Sys2Proof.Machine.execFifoLen s
  | .fifoIsEmpty => Sys2Proof.Machine.execFifoIsEmpty s
  | .fifoIsFull => Sys2Proof.Machine.execFifoIsFull s
  | .rxStart => Sys2Proof.Machine.execRxStart s
  | .rxStop => Sys2Proof.Machine.execRxStop s
  | .rxCycle => Sys2Proof.Machine.execRxCycle s
  | .txSend dataIn => Sys2Proof.Machine.execTxSend dataIn s
  | .wireNull payload => Sys2Proof.Machine.execWireNull payload s
  | .wireMoveEast payload => Sys2Proof.Machine.execWireMoveEast payload s
  | .wireMoveWest payload => Sys2Proof.Machine.execWireMoveWest payload s
  | .wireMoveNorth payload => Sys2Proof.Machine.execWireMoveNorth payload s
  | .wireMoveSouth payload => Sys2Proof.Machine.execWireMoveSouth payload s
  | .wireStopMotion payload => Sys2Proof.Machine.execWireStopMotion payload s
  | .wirePark payload => Sys2Proof.Machine.execWirePark payload s
  | .wireGetSiteLocation payload => Sys2Proof.Machine.execWireGetSiteLocation payload s
  | .wireDisconnect payload => Sys2Proof.Machine.execWireDisconnect payload s
  | .wireGoto payload => Sys2Proof.Machine.execWireGoto payload s
  | .wireSync payload => Sys2Proof.Machine.execWireSync payload s
  | .wireSetSiteLocation payload => Sys2Proof.Machine.execWireSetSiteLocation payload s
  | .wireSetDateTime payload => Sys2Proof.Machine.execWireSetDateTime payload s
  | .wireSiteLocationReport payload => Sys2Proof.Machine.execWireSiteLocationReport payload s
  | .wirePositionReport payload => Sys2Proof.Machine.execWirePositionReport payload s

end Sys2Proof.Machine
end

