-- ==== Sys2Proof/Machine/Step.lean ====
section
/-! DEFINITION. One step: the next input of the agenda takes effect, or, where none is listed, the
receive agent moves (20_memory.md R55; assumption log 4). The block has no program counter: an
instruction is fetched from the host port, or, a wire command, from the FIFO (10_state.md R22). -/

namespace Sys2Proof.Machine

/-- One step of the block and what drives it. -/
def step (s : State) : Host.Outcome State Fault Refusal :=
  match s.agenda with
  | [] => .next (agentFreeStep s)
  | .request r :: rest =>
    match decodeRequest r with
    | .ok i => exec i { s with agenda := rest }
    | .error _ => .next (illegalOp { s with agenda := rest })
  | .agent lastCycle :: rest => .next (agentStep lastCycle { s with agenda := rest })
  | .answerAvail n :: rest => .next (settleAvail n { s with agenda := rest })
  | .answerReads rs :: rest => .next (settleReads rs { s with agenda := rest })
  | .answerWrite ok :: rest => .next (settleWrite ok { s with agenda := rest })
  | .reset :: rest => applyReset { s with agenda := rest }

/-- The state with the instruction of a table word where the next step takes it: a selector at the head
of the agenda, or a frame in the FIFO with the agent at EXTRACT. Assumption log 10. -/
def State.withFetchWord (s : State) (nbits w : Nat) : State := placeEncoding (encodingOfTableWord nbits w) s

end Sys2Proof.Machine
end

