-- ==== Sys2Proof/Machine/Ring.lean ====
section
/-! DEFINITION. The ring representation of the FIFO (10_state.md R24). State holds the contents `Q`
alone, as R24 allows; this is the structure R24 describes, for the claim that it implements `Q`. -/

namespace Sys2Proof.Machine

/-- `mem`, `head` and `count` of R24; `N` is the length of `mem`. -/
structure Ring where
  mem : List Byte
  head : Nat
  count : Nat
  deriving DecidableEq, Repr

/-- R24's bounds: `head` in `0..N-1`, `count` in `0..N`. -/
abbrev Ring.Valid (r : Ring) : Prop := r.head < r.mem.length ∧ r.count ≤ r.mem.length

/-- R24's abstraction: `Q = [mem[(head + k) % N] for k in 0..count-1]`. -/
def Ring.contents (r : Ring) : List Byte :=
  (List.range r.count).map fun k => r.mem.getD ((r.head + k) % r.mem.length) 0

/-- R24's push, refused when full (42_fifo.md R150). -/
def Ring.push (r : Ring) (b : Byte) : Ring × Bool :=
  if r.count < r.mem.length then
    ({ r with mem := r.mem.set ((r.head + r.count) % r.mem.length) b, count := r.count + 1 }, true)
  else (r, false)

/-- R24's drain, none where `n` exceeds the occupancy (R151). -/
def Ring.drain (r : Ring) (n : Nat) : Option Ring :=
  if n > r.count then none
  else some { r with head := (r.head + n) % r.mem.length, count := r.count - n }

end Sys2Proof.Machine
end

