-- ==== Sys2Proof/Safety.lean ====
section
/-! DEFINITION. What counts as a sound state and as a safe run, and the spec's notions that claims are
stated in: legal values (10_state.md R27), the wedge (70_reset_and_hazards.md R235), the real value of a
binary32 pattern (00_scope.md R11). -/

namespace Sys2Proof.Machine

/-- R23: `0 <= |Q| <= N`. -/
abbrev Fifo.wf (p : Params) (q : List Byte) : Prop := q.length ≤ p.capacity

/-- R27's legal values. -/
abbrev LegalValues (s : State) : Prop :=
  (s.rxStopPending = true → s.rxRunning = true)
    ∧ (s.rxPhase ≠ .idle → s.rxRunning = true)
    ∧ (s.rxAppended = true → s.rxPhase ≠ .idle)

/-- The model's own bookkeeping agrees with the spec's bits: an RX_CYCLE waits only during a cycle, an
RX_STOP only while a stop is pending, exactly one waiting RX_STOP took effect (43_framer.md R171), and a
last cycle is a cycle after a stop (R182). -/
abbrev Bookkeeping (s : State) : Prop :=
  (Waiter.cycle ∈ s.waiting → s.rxPhase ≠ .idle)
    ∧ (Waiter.stop false ∈ s.waiting → s.rxStopPending = true)
    ∧ s.waiting.count (.stop true) = (if s.rxStopPending then 1 else 0)
    ∧ (s.haltAfter = true → s.rxStopPending = true ∧ s.rxPhase ≠ .idle)

/-- The invariant of every run: valid parameters (R7), R23's bound, R27's legal values, and the
bookkeeping. -/
abbrev Inv (s : State) : Prop :=
  s.cfg.Valid ∧ Fifo.wf s.cfg s.q ∧ LegalValues s ∧ Bookkeeping s

/-- Reached from `s` by steps. -/
inductive Reachable (s : State) : State → Prop where
  | refl : Reachable s s
  | next {t u : State} : Reachable s t → step t = .next u → Reachable s u

/-- A safe outcome: the block goes on. -/
abbrev Runs (o : Host.Outcome State Fault Refusal) : Prop := ∃ t, o = .next t

/-- The full-buffer wedge of R235: full, and no frame can be extracted. -/
abbrev Wedged (s : State) : Prop := s.cfg.capacity ≤ s.q.length ∧ frameStart s.q = none

/-- The host operations, as against the wire commands. -/
def isHostOp (i : Instr) : Prop := ∃ r, encode i = .request r

/-- A selector of R79's table chooses one operation, with the operands its format reads (R79, R80). -/
abbrev Selects (sel : Half) (operation : Request → Instr) : Prop :=
  ∀ r : Request, r.sel = sel → decodeRequest r = .ok (operation r)

/-- The float fields A and B of an 8-byte payload: frame offsets 5..8 and 9..12 (30_encoding.md R76). -/
def fieldA (p : Params) (payload : List Byte) : Word :=
  f32from p (payload.getD 0 0) (payload.getD 1 0) (payload.getD 2 0) (payload.getD 3 0)

/-- See `fieldA`. -/
def fieldB (p : Params) (payload : List Byte) : Word :=
  f32from p (payload.getD 4 0) (payload.getD 5 0) (payload.getD 6 0) (payload.getD 7 0)

/-- The events that a frame with this id and payload raises (43_framer.md R176): one for a report, none
otherwise. -/
def reportEvents (p : Params) (id : Byte) (payload : List Byte) : List Event :=
  if id = 0xFF then [{ kind := .pos, a := fieldA p payload, b := fieldB p payload }]
  else if id = 0xFE then [{ kind := .site, a := fieldA p payload, b := fieldB p payload }]
  else []

/-- The events of the frame that would be extracted from the bytes `S` (R175, R176). -/
def firstFrameEvents (p : Params) (S : List Byte) : List Event :=
  match frameStart S with
  | none => []
  | some i => reportEvents p (S.getD (i + 4) 0) ((S.drop (i + 5)).take 8)

/-- The bytes that are left of `S` after an extraction (R177, R178). -/
def afterFrame (S : List Byte) : List Byte :=
  match frameStart S with
  | none => S
  | some i => S.drop (i + 13)

/-- Instructions run one after the other, as long as each answers a next state. -/
def execAll : List Instr → State → Host.Outcome State Fault Refusal
  | [], s => .next s
  | i :: is, s =>
    match exec i s with
    | .next t => execAll is t
    | .fault r => .fault r
    | .refused r => .refused r

/-- The response OK with a frame (40_encoder.md R100). -/
abbrev okFrame (bytes : List Byte) : Response := { status := .ok, result := .frameOut bytes }

/-- A response that is a status alone. -/
abbrev bare (status : Status) : Response := { status := status, result := .none }

/-- The response OK with a flag. -/
abbrev okFlag (b : Bool) : Response := { status := .ok, result := .flag b }

/-- The operation answers at once with one response, and nothing else in the state changes. -/
abbrev Answers (i : Instr) (s : State) (r : Response) : Prop :=
  exec i s = .next { s with responses := s.responses ++ [r] }

/-- The encoders: ENC and ENC_MWT (R122). -/
def isEncoder : Instr → Bool
  | .encMoveEast | .encMoveWest | .encMoveNorth | .encMoveSouth => true
  | .encStopMotion | .encPark | .encGetSiteLocation | .encDisconnect => true
  | .encGoto _ _ | .encSync _ _ | .encSetSiteLocation _ _ => true
  | .encSetDateTime _ _ _ _ _ _ => true
  | .encSiteLocationReport _ _ | .encPositionReport _ _ => true
  | .encMwtEast | .encMwtWest | .encMwtNorth | .encMwtSouth => true
  | .dec _ | .fifoPush _ | .fifoDrain _ => false
  | .fifoSnapshot | .fifoLen | .fifoIsEmpty | .fifoIsFull => false
  | .rxStart | .rxStop | .rxCycle | .txSend _ => false
  | .wireNull _ | .wireMoveEast _ | .wireMoveWest _ | .wireMoveNorth _ | .wireMoveSouth _ => false
  | .wireStopMotion _ | .wirePark _ | .wireGetSiteLocation _ | .wireDisconnect _ => false
  | .wireGoto _ | .wireSync _ | .wireSetSiteLocation _ | .wireSetDateTime _ => false
  | .wireSiteLocationReport _ | .wirePositionReport _ => false

/-- The agent is at rest between two cycles, running, no stop pending. -/
abbrev BetweenCycles (s : State) : Prop :=
  s.rxRunning = true ∧ s.rxStopPending = false ∧ s.rxPhase = .idle

/-- A two-digit number in packed BCD, as arithmetic (00_scope.md R12). -/
def packedBcd (v : Nat) : Byte := BitVec.ofNat 8 (16 * (v / 10) + v % 10)

/-- R71's payload, with R78's year split and R77's bytes written out. -/
def dateTimeBytes (p : Params) (year : Half) (month day hour minute second : Byte) : List Byte :=
  if p.dtBCD then
    [packedBcd (year.toNat / 100), packedBcd (year.toNat % 100), packedBcd month.toNat,
     packedBcd day.toNat, packedBcd hour.toNat, packedBcd minute.toNat, packedBcd second.toNat, 0x00]
  else
    [BitVec.ofNat 8 (year.toNat / 256), BitVec.ofNat 8 (year.toNat % 256), month, day, hour, minute,
     second, 0x00]

/-- `value(u)` of a finite pattern as a rational, from IEEE-754's own formula (R11). -/
def f32Rat (u : Word) : ℚ :=
  (if f32Sign u then -1 else 1) *
    (if f32Exponent u = 0 then (f32Fraction u : ℚ) * (2 : ℚ) ^ (-149 : ℤ)
     else (1 + (f32Fraction u : ℚ) / 2 ^ 23) * (2 : ℚ) ^ ((f32Exponent u : ℤ) - 127))

/-- A finite pattern: neither an infinity nor a NaN. -/
abbrev f32Finite (u : Word) : Prop := f32Exponent u ≠ 0xFF

/-- R101's range check said over the rationals: a NaN follows `P_NAN_ACCEPT`, an infinity fails, a finite
value lies in the interval, whose upper end is closed or open. -/
def InRange (p : Params) (lo hi : ℚ) (closed : Bool) (u : Word) : Prop :=
  if isNaN u then p.nanAccept = true
  else f32Finite u ∧ lo ≤ f32Rat u ∧ (if closed then f32Rat u ≤ hi else f32Rat u < hi)

/-- `right-ascension ∈ [0,24)` (R101). -/
def RaInRange (p : Params) (u : Word) : Prop := InRange p 0 24 false u

/-- `declination ∈ [-90,90]` (R101). -/
def DecInRange (p : Params) (u : Word) : Prop := InRange p (-90) 90 true u

/-- `latitude ∈ [-180,180]` (R101). -/
def LatInRange (p : Params) (u : Word) : Prop := InRange p (-180) 180 true u

/-- `longitude ∈ [-90,90]` (R101). -/
def LonInRange (p : Params) (u : Word) : Prop := InRange p (-90) 90 true u

/-- R113's month lengths: 31, 30, or February's (R114). -/
def DayInMonth (year month day : Nat) : Prop :=
  1 ≤ day ∧
    ((month ∈ [1, 3, 5, 7, 8, 10, 12] ∧ day ≤ 31) ∨ (month ∈ [4, 6, 9, 11] ∧ day ≤ 30)
      ∨ (month = 2 ∧ (day ≤ 28 ∨ (day = 29 ∧ year % 4 = 0))))

/-- R113's validity of a date and time. -/
def DateTimeInRange (p : Params) (year : Half) (month day hour minute second : Byte) : Prop :=
  (p.dtBCD = true → year.toNat ≤ 9999) ∧ DayInMonth year.toNat month.toNat day.toNat
    ∧ hour.toNat ≤ 24 ∧ minute.toNat ≤ 59 ∧ second.toNat ≤ 59

end Sys2Proof.Machine
end

