-- ==== Sys2Proof/Certificates/Slice0/Obligations.lean ====
section
/-! DEFINITION. The statements about the model, from the spec's numbered rules. -/

open Sys2Proof Sys2Proof.Machine

/-! ### Encoding and fetching -/

/-- Decode and encode agree on every well-formed instruction (30_encoding.md R65, R67, R79, R80). -/
def Obligations.DecodeEncodeGivesInstructionBack : Prop :=
  ∀ i : Instr, i.wellFormed = true → decode (encode i) = .ok i

/-- The other direction: what decodes is well formed; a frame has one meaning and is encoded back byte for
byte; a request is encoded back with its selector and the operands it uses (R65, R67, R79, R80). -/
def Obligations.DecodedEncodingIsRecovered : Prop :=
  (∀ e i, decode e = .ok i → i.wellFormed = true) ∧
  (∀ bytes i, decode (.frame bytes) = .ok i → encode i = .frame bytes) ∧
  (∀ r i, decode (.request r) = .ok i →
    ∃ r', encode i = .request r' ∧ r'.sel = r.sel ∧ decodeRequest r' = .ok i)

/-- R81: every selector outside R79's table is E_ILLEGAL_OP and writes no state; every selector in it
chooses an operation. -/
def Obligations.UnlistedSelectorIsIllegal : Prop :=
  let listed : List Half :=
    [0x1001, 0x1002, 0x1004, 0x1008, 0x101D, 0x101E, 0x101F, 0x1022, 0x1023, 0x1024, 0x1025, 0x1026,
     0x10FE, 0x10FF, 0x1101, 0x1102, 0x1104, 0x1108, 0x2000, 0x3000, 0x3100, 0x3200, 0x3300, 0x3400,
     0x3500, 0x4000, 0x4100, 0x4200, 0x4300]
  (∀ r : Request, r.sel ∈ listed → ∃ i, decodeRequest r = .ok i) ∧
  (∀ (s : State) (r : Request) (rest : List Input), s.agenda = .request r :: rest → r.sel ∉ listed →
    step s = .next { s with agenda := rest, responses := s.responses ++ [bare .eIllegalOp] })

/-- Words written out from the spec's encodings decode to the instructions they stand for: the selectors are
R79's and the whole frame is R65's and R67's (30_encoding.md). How `decodeTableWord` reads a word of the
opcode table, a selector with zero operands, and 40 bits as a frame's first bytes with frame byte 0 most
significant and eight zero bytes after them, is the model's choice, assumption log 11. -/
def Obligations.WrittenOutWordsDecode : Prop :=
  decodeTableWord 16 0x101D = some .encStopMotion ∧
  decodeTableWord 16 0x1108 = some .encMwtSouth ∧
  decodeTableWord 16 0x3500 = some .fifoIsFull ∧
  decodeTableWord 16 0x4100 = some .rxStop ∧
  decodeTableWord 16 0x1000 = none ∧
  decodeTableWord 40 0x55AA010922 = some (.wireDisconnect [0, 0, 0, 0, 0, 0, 0, 0]) ∧
  decodeFrame [0x55, 0xAA, 0x01, 0x09, 0xFF, 0x00, 0x00, 0xC8, 0x40, 0x00, 0x00, 0x36, 0xC2]
    = .ok (.wirePositionReport [0x00, 0x00, 0xC8, 0x40, 0x00, 0x00, 0x36, 0xC2])

/-- A step with a request next runs the operation it selects, on the state without the request (R52,
R55, R79); a table word placed for the next step is run by it.
The agenda is the model's choice, assumption log 4 (and 10 for placing a word). -/
def Obligations.StepRunsSelectedInstruction : Prop :=
  (∀ (s : State) (r : Request) (rest : List Input) (i : Instr),
    s.agenda = .request r :: rest → decodeRequest r = .ok i →
      step s = exec i { s with agenda := rest }) ∧
  (∀ (s : State) (w : Nat) (i : Instr),
    decodeTableWord 16 w = some i → step (s.withFetchWord 16 w) = exec i s)

/-- A step at EXTRACT runs the wire command that stands first in the FIFO and ends the cycle
(43_framer.md R172, R175 to R177).
A wire command's meaning is the model's inference, assumption log 9. -/
def Obligations.StepRunsExtractedWireCommand : Prop :=
  ∀ (s t : State) (c : Bool) (rest : List Input) (i : Nat) (w : Instr),
    s.agenda = .agent c :: rest → s.rxPhase = .extract → s.rxAppended = true → s.haltAfter = false →
    Waiter.cycle ∉ s.waiting → frameStart s.q = some i → decodeFrame (frameAt s.q i) = .ok w →
    exec w { s with agenda := rest } = .next t →
      step s = .next { t with rxPhase := .idle, rxAppended := false }

/-! ### Encoders -/

/-- R102 to R109: each zero-payload encoder answers its constant frame, whatever the state is. -/
def Obligations.ZeroPayloadEncodersAnswerTheirFrame : Prop :=
  (Selects 0x1001 fun _ => .encMoveEast) ∧ (Selects 0x1002 fun _ => .encMoveWest) ∧
  (Selects 0x1004 fun _ => .encMoveNorth) ∧ (Selects 0x1008 fun _ => .encMoveSouth) ∧
  (Selects 0x101D fun _ => .encStopMotion) ∧ (Selects 0x101E fun _ => .encPark) ∧
  (Selects 0x101F fun _ => .encGetSiteLocation) ∧ (Selects 0x1022 fun _ => .encDisconnect) ∧
  ∀ s : State,
    Answers .encMoveEast s (okFrame [0x55, 0xAA, 0x01, 0x09, 0x01, 0, 0, 0, 0, 0, 0, 0, 0]) ∧
    Answers .encMoveWest s (okFrame [0x55, 0xAA, 0x01, 0x09, 0x02, 0, 0, 0, 0, 0, 0, 0, 0]) ∧
    Answers .encMoveNorth s (okFrame [0x55, 0xAA, 0x01, 0x09, 0x04, 0, 0, 0, 0, 0, 0, 0, 0]) ∧
    Answers .encMoveSouth s (okFrame [0x55, 0xAA, 0x01, 0x09, 0x08, 0, 0, 0, 0, 0, 0, 0, 0]) ∧
    Answers .encStopMotion s (okFrame [0x55, 0xAA, 0x01, 0x09, 0x1D, 0, 0, 0, 0, 0, 0, 0, 0]) ∧
    Answers .encPark s (okFrame [0x55, 0xAA, 0x01, 0x09, 0x1E, 0, 0, 0, 0, 0, 0, 0, 0]) ∧
    Answers .encGetSiteLocation s (okFrame [0x55, 0xAA, 0x01, 0x09, 0x1F, 0, 0, 0, 0, 0, 0, 0, 0]) ∧
    Answers .encDisconnect s (okFrame [0x55, 0xAA, 0x01, 0x09, 0x22, 0, 0, 0, 0, 0, 0, 0, 0])

/-- R118 to R121: each move-while-tracking encoder answers its constant frame. -/
def Obligations.MoveWhileTrackingEncodersAnswerTheirFrame : Prop :=
  (Selects 0x1101 fun _ => .encMwtEast) ∧ (Selects 0x1102 fun _ => .encMwtWest) ∧
  (Selects 0x1104 fun _ => .encMwtNorth) ∧ (Selects 0x1108 fun _ => .encMwtSouth) ∧
  ∀ s : State,
    Answers .encMwtEast s (okFrame [0x55, 0xAA, 0x01, 0x09, 0x01, 0xC8, 0, 0, 0, 0xC8, 0, 0, 0]) ∧
    Answers .encMwtWest s (okFrame [0x55, 0xAA, 0x01, 0x09, 0x02, 0xC8, 0, 0, 0, 0xC8, 0, 0, 0]) ∧
    Answers .encMwtNorth s (okFrame [0x55, 0xAA, 0x01, 0x09, 0x04, 0xC8, 0, 0, 0, 0xC8, 0, 0, 0]) ∧
    Answers .encMwtSouth s (okFrame [0x55, 0xAA, 0x01, 0x09, 0x08, 0xC8, 0, 0, 0, 0xC8, 0, 0, 0])

/-- R110, R111: ra then dec on the wire where both are in range, E_VALIDATION otherwise. -/
def Obligations.GotoAndSyncEncodeOrReject : Prop :=
  (Selects 0x1023 fun r => .encGoto r.a r.b) ∧ (Selects 0x1024 fun r => .encSync r.a r.b) ∧
  ∀ (s : State) (ra dec : Word),
    (RaInRange s.cfg ra ∧ DecInRange s.cfg dec →
      Answers (.encGoto ra dec) s
        (okFrame ([0x55, 0xAA, 0x01, 0x09, 0x23] ++ f32bytes s.cfg ra ++ f32bytes s.cfg dec)) ∧
      Answers (.encSync ra dec) s
        (okFrame ([0x55, 0xAA, 0x01, 0x09, 0x24] ++ f32bytes s.cfg ra ++ f32bytes s.cfg dec))) ∧
    (¬ (RaInRange s.cfg ra ∧ DecInRange s.cfg dec) →
      Answers (.encGoto ra dec) s (bare .eValidation) ∧
      Answers (.encSync ra dec) s (bare .eValidation))

/-- R112: lon before lat on the wire, with the inverted ranges; E_VALIDATION otherwise. -/
def Obligations.SetSiteLocationEncodesLongitudeFirst : Prop :=
  (Selects 0x1025 fun r => .encSetSiteLocation r.a r.b) ∧
  ∀ (s : State) (lat lon : Word),
    (LatInRange s.cfg lat ∧ LonInRange s.cfg lon →
      Answers (.encSetSiteLocation lat lon) s
        (okFrame ([0x55, 0xAA, 0x01, 0x09, 0x25] ++ f32bytes s.cfg lon ++ f32bytes s.cfg lat))) ∧
    (¬ (LatInRange s.cfg lat ∧ LonInRange s.cfg lon) →
      Answers (.encSetSiteLocation lat lon) s (bare .eValidation))

/-- R116, R117: the report encoders, field A then field B, with the ranges of their fields. -/
def Obligations.ReportEncodersEncodeOrReject : Prop :=
  (Selects 0x10FE fun r => .encSiteLocationReport r.a r.b) ∧
  (Selects 0x10FF fun r => .encPositionReport r.a r.b) ∧
  ∀ (s : State) (a b : Word),
    (LatInRange s.cfg a ∧ LonInRange s.cfg b →
      Answers (.encSiteLocationReport a b) s
        (okFrame ([0x55, 0xAA, 0x01, 0x09, 0xFE] ++ f32bytes s.cfg a ++ f32bytes s.cfg b))) ∧
    (¬ (LatInRange s.cfg a ∧ LonInRange s.cfg b) →
      Answers (.encSiteLocationReport a b) s (bare .eValidation)) ∧
    (RaInRange s.cfg a ∧ DecInRange s.cfg b →
      Answers (.encPositionReport a b) s
        (okFrame ([0x55, 0xAA, 0x01, 0x09, 0xFF] ++ f32bytes s.cfg a ++ f32bytes s.cfg b))) ∧
    (¬ (RaInRange s.cfg a ∧ DecInRange s.cfg b) →
      Answers (.encPositionReport a b) s (bare .eValidation))

/-- R113, R115: the date/time frame where the date and time are valid, E_VALIDATION otherwise. -/
def Obligations.SetDateTimeEncodesOrRejects : Prop :=
  (Selects 0x1026 fun r => .encSetDateTime r.year r.month r.day r.hour r.minute r.second) ∧
  ∀ (s : State) (year : Half) (month day hour minute second : Byte),
    (DateTimeInRange s.cfg year month day hour minute second →
      Answers (.encSetDateTime year month day hour minute second) s
        (okFrame ([0x55, 0xAA, 0x01, 0x09, 0x26]
          ++ dateTimeBytes s.cfg year month day hour minute second))) ∧
    (¬ DateTimeInRange s.cfg year month day hour minute second →
      Answers (.encSetDateTime year month day hour minute second) s (bare .eValidation))

/-- R114: a February day is accepted exactly up to 29 in a year divisible by 4, centuries too, and up to
28 in any other. -/
def Obligations.EveryFourthYearIsLeap : Prop :=
  ∀ (s : State) (year : Half) (day hour minute second : Byte),
    (s.cfg.dtBCD = true → year.toNat ≤ 9999) → hour.toNat ≤ 24 → minute.toNat ≤ 59 →
    second.toNat ≤ 59 → 1 ≤ day.toNat →
      ((∃ F, Answers (.encSetDateTime year 2 day hour minute second) s (okFrame F)) ↔
        day.toNat ≤ if year.toNat % 4 = 0 then 29 else 28)

/-- R101 on patterns: on a pattern that is no NaN, each range check is a comparison of the bits. -/
def Obligations.RangeChecksCompareBits : Prop :=
  ∀ (p : Params) (u : Word), isNaN u = false →
    (inRa p u = true ↔ u = 0x80000000 ∨ u.toNat < 0x41C00000) ∧
    (inDec p u = true ↔ u.toNat % 0x80000000 ≤ 0x42B40000) ∧
    (inLat p u = true ↔ u.toNat % 0x80000000 ≤ 0x43340000) ∧
    (inLon p u = true ↔ u.toNat % 0x80000000 ≤ 0x42B40000)

/-- R11: the four bytes of a pattern, least significant first or last, and their inverse. -/
def Obligations.FloatBytesAndTheirInverse : Prop :=
  ∀ (p : Params) (u : Word) (b0 b1 b2 b3 : Byte),
    f32bytes p u =
      (let little := [BitVec.ofNat 8 u.toNat, BitVec.ofNat 8 (u.toNat / 2 ^ 8),
        BitVec.ofNat 8 (u.toNat / 2 ^ 16), BitVec.ofNat 8 (u.toNat / 2 ^ 24)]
       if p.floatLE then little else little.reverse) ∧
    f32bytes p (f32from p b0 b1 b2 b3) = [b0, b1, b2, b3] ∧
    (f32bytes p u = [b0, b1, b2, b3] → f32from p b0 b1 b2 b3 = u)

/-- R122, R143: an encoder answers at once with a response that depends on its operands and on three of
the parameters, DEC with one that depends on its frame and on `P_FLOAT_LE`; neither changes anything
else. -/
def Obligations.CodecDependsOnOperandsOnly : Prop :=
  (∀ (i : Instr) (p : Params), isEncoder i = true →
    ∃ r : Response, ∀ s : State, s.cfg.floatLE = p.floatLE → s.cfg.nanAccept = p.nanAccept →
      s.cfg.dtBCD = p.dtBCD → Answers i s r) ∧
  ∀ (F : List Byte) (p : Params),
    ∃ r : Response, ∀ s : State, s.cfg.floatLE = p.floatLE → Answers (.dec F) s r

/-! ### Decoder -/

/-- R140 to R142: the record of a frame, by its id; E_NOFRAME without the preamble. -/
def Obligations.DecClassifiesFrames : Prop :=
  (Selects 0x2000 fun r => .dec r.frameIn.toList) ∧
  ∀ (s : State) (F : List Byte), F.length = 13 →
    (F.take 4 = [0x55, 0xAA, 0x01, 0x09] →
      Answers (.dec F) s
        { status := .ok
          result := .decOut
            { kind := if F.getD 4 0 = 0xFF then .position
                else if F.getD 4 0 = 0xFE then .site else .unhandled
              id := F.getD 4 0
              payload := F.drop 5
              fa := f32from s.cfg (F.getD 5 0) (F.getD 6 0) (F.getD 7 0) (F.getD 8 0)
              fb := f32from s.cfg (F.getD 9 0) (F.getD 10 0) (F.getD 11 0) (F.getD 12 0) } }) ∧
    (F.take 4 ≠ [0x55, 0xAA, 0x01, 0x09] → Answers (.dec F) s (bare .eNoframe))

/-- R144: DEC of an encoded report recovers its operands bit for bit; of any other encoded frame it
reports the id and the payload, unhandled; and re-encoding a decoded report gives the frame back. -/
def Obligations.DecodeRecoversEncodedReports : Prop :=
  ∀ (s : State) (F : List Byte),
    (∀ a b : Word,
      (Answers (.encPositionReport a b) s (okFrame F) →
        Answers (.dec F) s
          { status := .ok
            result := .decOut { kind := .position, id := 0xFF,
                                payload := f32bytes s.cfg a ++ f32bytes s.cfg b, fa := a, fb := b } }) ∧
      (Answers (.encSiteLocationReport a b) s (okFrame F) →
        Answers (.dec F) s
          { status := .ok
            result := .decOut { kind := .site, id := 0xFE,
                                payload := f32bytes s.cfg a ++ f32bytes s.cfg b, fa := a, fb := b } })) ∧
    (∀ (i : Instr) (r : Request), isEncoder i = true → encode i = .request r →
      r.sel ≠ 0x10FE → r.sel ≠ 0x10FF → Answers i s (okFrame F) →
        ∃ fa fb : Word, Answers (.dec F) s
          { status := .ok
            result := .decOut { kind := .unhandled, id := BitVec.ofNat 8 r.sel.toNat,
                                payload := F.drop 5, fa := fa, fb := fb } }) ∧
    (F.length = 13 → F.take 4 = [0x55, 0xAA, 0x01, 0x09] →
      (F.getD 4 0 = 0xFF → RaInRange s.cfg (fieldA s.cfg (F.drop 5)) →
        DecInRange s.cfg (fieldB s.cfg (F.drop 5)) →
        Answers (.encPositionReport (fieldA s.cfg (F.drop 5)) (fieldB s.cfg (F.drop 5))) s
          (okFrame F)) ∧
      (F.getD 4 0 = 0xFE → LatInRange s.cfg (fieldA s.cfg (F.drop 5)) →
        LonInRange s.cfg (fieldB s.cfg (F.drop 5)) →
        Answers (.encSiteLocationReport (fieldA s.cfg (F.drop 5)) (fieldB s.cfg (F.drop 5))) s
          (okFrame F)))

/-! ### FIFO -/

/-- R150: a push appends where there is room and is refused, without an error, where there is none. -/
def Obligations.PushAppendsOrIsRefused : Prop :=
  (Selects 0x3000 fun r => .fifoPush r.byte) ∧
  ∀ (s : State) (b : Byte), s.rxRunning = false →
    (s.q.length < s.cfg.capacity →
      exec (.fifoPush b) s
        = .next { s with q := s.q ++ [b], responses := s.responses ++ [okFlag true] }) ∧
    (¬ s.q.length < s.cfg.capacity → Answers (.fifoPush b) s (okFlag false))

/-- R151: a drain drops the oldest `n` bytes, or is E_UNDERRUN with `Q` unchanged. -/
def Obligations.DrainDropsOldestBytes : Prop :=
  (Selects 0x3100 fun r => .fifoDrain r.n) ∧
  ∀ (s : State) (n : Half), s.rxRunning = false →
    (n.toNat ≤ s.q.length →
      exec (.fifoDrain n) s
        = .next { s with q := s.q.drop n.toNat, responses := s.responses ++ [bare .ok] }) ∧
    (s.q.length < n.toNat → Answers (.fifoDrain n) s (bare .eUnderrun))

/-- R152 to R155: the FIFO's four reads, which leave `Q` alone. -/
def Obligations.FifoReadsReportContents : Prop :=
  (Selects 0x3200 fun _ => .fifoSnapshot) ∧ (Selects 0x3300 fun _ => .fifoLen) ∧
  (Selects 0x3400 fun _ => .fifoIsEmpty) ∧ (Selects 0x3500 fun _ => .fifoIsFull) ∧
  ∀ s : State, s.rxRunning = false → s.cfg.Valid → Fifo.wf s.cfg s.q →
    Answers .fifoSnapshot s { status := .ok, result := .snap s.q } ∧
    (∃ n : Half, n.toNat = s.q.length ∧ Answers .fifoLen s { status := .ok, result := .len n }) ∧
    Answers .fifoIsEmpty s (okFlag (decide (s.q = []))) ∧
    Answers .fifoIsFull s (okFlag (decide (s.q.length = s.cfg.capacity)))

/-- R157, R208: while the receive agent runs, every FIFO-port operation is E_ILLEGAL_OP and changes
nothing, an underrun included. -/
def Obligations.FifoPortIsClosedWhileRunning : Prop :=
  ∀ (s : State) (b : Byte) (n : Half), s.rxRunning = true →
    ∀ i ∈ [Instr.fifoPush b, .fifoDrain n, .fifoSnapshot, .fifoLen, .fifoIsEmpty, .fifoIsFull],
      Answers i s (bare .eIllegalOp)

/-- R156: pushes one after the other fill the FIFO in order up to its capacity, and each says whether its
byte went in. -/
def Obligations.PushesFillInOrderUpToCapacity : Prop :=
  ∀ (s : State) (bs : List Byte), s.rxRunning = false → Fifo.wf s.cfg s.q →
    execAll (bs.map .fifoPush) s
      = .next { s with
          q := (s.q ++ bs).take s.cfg.capacity
          responses := s.responses ++ (List.range bs.length).map fun k =>
            okFlag (decide (s.q.length + k < s.cfg.capacity)) }

/-- 10_state.md R24: the ring of `mem`, `head` and `count` implements the FIFO's contents: its push and
drain do on the contents what the FIFO's do on `Q`, within R24's bounds. -/
def Obligations.RingImplementsFifo : Prop :=
  ∀ (r : Ring) (b : Byte) (n : Nat), r.Valid →
    r.contents.length = r.count ∧
    (r.push b).1.Valid ∧ (r.push b).1.mem.length = r.mem.length ∧
    ((r.push b).1.contents, (r.push b).2) = pushByte r.mem.length r.contents b ∧
    (r.drain n).map Ring.contents = drainBytes r.contents n ∧
    ∀ r', r.drain n = some r' → r'.Valid ∧ r'.mem = r.mem

/-! ### Starting, stopping, sending -/

/-- R170: RX_START starts the agent and keeps `Q`; while it runs it has no effect. -/
def Obligations.RxStartIsIdempotent : Prop :=
  (Selects 0x4000 fun _ => .rxStart) ∧
  ∀ s : State,
    (s.rxRunning = true → Answers .rxStart s (okFlag false)) ∧
    (s.rxRunning = false →
      exec .rxStart s = .next { s with
        rxRunning := true, rxStopPending := false, rxPhase := .idle, rxAppended := false
        responses := s.responses ++ [okFlag true] })

/-- R171: RX_STOP returns at once where nothing runs; otherwise it waits, the first one sets
`rx_stop_pending`, and a later one has no effect of its own.
The list of waiting calls is the model's choice, assumption log 6. -/
def Obligations.RxStopWaitsForTheHalt : Prop :=
  (Selects 0x4100 fun _ => .rxStop) ∧
  ∀ s : State,
    (s.rxRunning = false → Answers .rxStop s (okFlag false)) ∧
    (s.rxRunning = true → s.rxStopPending = true →
      exec .rxStop s = .next { s with waiting := s.waiting ++ [.stop false] }) ∧
    (s.rxRunning = true → s.rxStopPending = false →
      exec .rxStop s
        = .next { s with rxStopPending := true, waiting := s.waiting ++ [.stop true] })

/-- R182, R171: the HALT step answers every waiting RX_STOP, exactly one with `flag = 1`, and clears both
control bits.
The list of waiting calls and the agenda are the model's choice, assumption logs 4 and 6. -/
def Obligations.HaltAnswersEveryStop : Prop :=
  ∀ (s : State) (rest : List Input), Inv s → s.rxPhase = .idle → s.rxStopPending = true →
    s.agenda = .agent false :: rest →
      step s = .next { s with
        agenda := rest, rxRunning := false, rxStopPending := false, waiting := []
        responses := s.responses ++ s.waiting.map Waiter.response } ∧
      (s.waiting.map Waiter.response).count (okFlag true) = 1

/-- R182: the other step enabled then is one whole receive cycle followed at once by HALT. The transport's
answers are those listed: a count of 0, after which no byte is read and nothing is extracted, or a count
above 0 and reads that end in None.
The agenda, the listed answers and the waiting calls are the model's choice,
assumption logs 3, 4 and 6. -/
def Obligations.LastCycleIsFollowedByHalt : Prop :=
  ∀ (s : State) (rest : List Input) (as : List Nat),
    Inv s → s.rxPhase = .idle → s.rxStopPending = true → s.agenda = .agent true :: rest →
    (s.availAnswers = 0 :: as →
      step s = .next { s with
        agenda := rest, availAnswers := as
        rxRunning := false, rxStopPending := false, waiting := []
        responses := s.responses ++ s.waiting.map Waiter.response }) ∧
    (∀ (n : Nat) (bs : List Byte) (rs : List (Option Byte)),
      s.availAnswers = (n + 1) :: as → s.readAnswers = bs.map some ++ none :: rs →
        let S := (s.q ++ bs).take s.cfg.capacity
        let appended := bs ≠ [] ∧ s.q.length < s.cfg.capacity
        step s = .next { s with
          agenda := rest, availAnswers := as, readAnswers := rs
          q := if appended then afterFrame S else s.q
          events := s.events ++ if appended then firstFrameEvents s.cfg S else []
          rxRunning := false, rxStopPending := false, waiting := []
          responses := s.responses ++ s.waiting.map Waiter.response })

/-- R181: one write of the bytes as they are, whose answer is the status. -/
def Obligations.TxSendReportsTheWrite : Prop :=
  (Selects 0x4300 fun r => .txSend r.dataIn) ∧
  ∀ (s : State) (bytes : List Byte) (ws : List Bool),
    (s.writeAnswers = true :: ws →
      exec (.txSend bytes) s = .next { s with
        sent := s.sent ++ [bytes], writeAnswers := ws, responses := s.responses ++ [bare .ok] }) ∧
    (s.writeAnswers = false :: ws →
      exec (.txSend bytes) s = .next { s with
        sent := s.sent ++ [bytes], writeAnswers := ws
        responses := s.responses ++ [bare .eTransport] })

/-! ### The receive cycle -/

/-- R174: the search finds the least index at which the preamble stands, and none exactly where it stands
nowhere. -/
def Obligations.PreambleSearchFindsFirstOccurrence : Prop :=
  ∀ S : List Byte,
    (∀ i, findPreamble S = some i ↔
      (i + 4 ≤ S.length ∧ (S.drop i).take 4 = [0x55, 0xAA, 0x01, 0x09] ∧
        ∀ j < i, (S.drop j).take 4 ≠ [0x55, 0xAA, 0x01, 0x09])) ∧
    (findPreamble S = none ↔ ∀ j, (S.drop j).take 4 ≠ [0x55, 0xAA, 0x01, 0x09])

/-- R175 to R178: at EXTRACT, a first preamble with 13 bytes from it makes one frame, whose event is
emitted if its id is a report's, and everything through its end is dropped; otherwise `Q` and the event
history stay. -/
def Obligations.ExtractTakesTheFirstWholeFrame : Prop :=
  ∀ (s : State) (c : Bool) (rest : List Input), Inv s → s.agenda = .agent c :: rest →
    s.rxPhase = .extract → s.rxAppended = true →
      (∀ i, findPreamble s.q = some i → i + 13 ≤ s.q.length →
        ∃ t, step s = .next t ∧ t.q = s.q.drop (i + 13) ∧
          t.events = s.events ++
            (if s.q.getD (i + 4) 0 = 0xFE then
              [{ kind := .site, a := fieldA s.cfg (s.q.drop (i + 5)),
                 b := fieldB s.cfg (s.q.drop (i + 5)) }]
             else if s.q.getD (i + 4) 0 = 0xFF then
              [{ kind := .pos, a := fieldA s.cfg (s.q.drop (i + 5)),
                 b := fieldB s.cfg (s.q.drop (i + 5)) }]
             else [])) ∧
      (∀ i, findPreamble s.q = some i → s.q.length < i + 13 →
        ∃ t, step s = .next t ∧ t.q = s.q ∧ t.events = s.events) ∧
      (findPreamble s.q = none → ∃ t, step s = .next t ∧ t.q = s.q ∧ t.events = s.events)

/-- R172: RX_CYCLE has no effect while the agent does not run or a stop is pending. -/
def Obligations.RxCycleIsIdleWhileStopped : Prop :=
  (Selects 0x4200 fun _ => .rxCycle) ∧
  ∀ s : State, s.rxRunning = false ∨ s.rxStopPending = true → Answers .rxCycle s (bare .ok)

/-- R172 to R179: one RX_CYCLE over answers that end in None. The bytes go into `Q` up to its capacity; if
one went in, the first frame, if whole, raises its event and is discarded with all before it; otherwise
nothing is extracted. With a count of 0 no byte is read.
The listed answers are the model's choice, assumption log 3. -/
def Obligations.RxCycleIngestsThenExtractsOnce : Prop :=
  ∀ (s : State) (as : List Nat), Inv s → BetweenCycles s →
    (s.availAnswers = 0 :: as →
      exec .rxCycle s
        = .next { s with availAnswers := as, responses := s.responses ++ [bare .ok] }) ∧
    (∀ (n : Nat) (bs : List Byte) (rs : List (Option Byte)),
      s.availAnswers = (n + 1) :: as → s.readAnswers = bs.map some ++ none :: rs →
        let S := (s.q ++ bs).take s.cfg.capacity
        let appended := bs ≠ [] ∧ s.q.length < s.cfg.capacity
        exec .rxCycle s = .next { s with
          availAnswers := as, readAnswers := rs
          q := if appended then afterFrame S else s.q
          events := s.events ++ if appended then firstFrameEvents s.cfg S else []
          responses := s.responses ++ [bare .ok] })

/-- R239: while no answer is None the cycle does not end, however small the count was: it stays in INGEST,
its RX_CYCLE is not answered, and bytes beyond the capacity are lost.
How the model holds such a cycle is its choice, assumption logs 3, 5 and 6. -/
def Obligations.IngestDoesNotEndWithoutNone : Prop :=
  ∀ (s : State) (bs : List Byte), Inv s → s.readAnswers = bs.map some →
    (∀ (n : Nat) (as : List Nat), BetweenCycles s → s.availAnswers = (n + 1) :: as →
      exec .rxCycle s = .next { s with
        rxPhase := .ingest, availAnswers := as, readAnswers := []
        q := (s.q ++ bs).take s.cfg.capacity
        rxAppended := decide (bs ≠ [] ∧ s.q.length < s.cfg.capacity)
        waiting := s.waiting ++ [.cycle] }) ∧
    (∀ (c : Bool) (rest : List Input), s.rxPhase = .ingest → bs ≠ [] →
      s.agenda = .agent c :: rest →
        step s = .next { s with
          agenda := rest, readAnswers := []
          q := (s.q ++ bs).take s.cfg.capacity
          rxAppended := s.rxAppended || decide (s.q.length < s.cfg.capacity) })

/-- R173, R172: a cycle left in INGEST goes on where None comes, and then extracts as if it had never
waited.
How the model holds such a cycle is its choice, assumption logs 3, 5 and 6. -/
def Obligations.SuspendedCycleFinishes : Prop :=
  ∀ (s : State) (c : Bool) (rest : List Input) (bs : List Byte) (rs : List (Option Byte)),
    Inv s → s.rxPhase = .ingest → s.agenda = .agent c :: rest →
    s.readAnswers = bs.map some ++ none :: rs →
      let S := (s.q ++ bs).take s.cfg.capacity
      let appended := s.rxAppended = true ∨ (bs ≠ [] ∧ s.q.length < s.cfg.capacity)
      step s = .next { s with
        agenda := rest, readAnswers := rs, rxPhase := .idle, rxAppended := false
        q := if appended then afterFrame S else s.q
        events := s.events ++ if appended then firstFrameEvents s.cfg S else []
        rxRunning := !s.haltAfter, haltAfter := false
        rxStopPending := s.rxStopPending && !s.haltAfter
        waiting := if s.haltAfter then [] else s.waiting.filter fun w => !w.isCycle
        responses := s.responses ++ (s.waiting.filter Waiter.isCycle).map Waiter.response
          ++ if s.haltAfter then (s.waiting.filter fun w => !w.isCycle).map Waiter.response
             else [] }

/-- R183: a poll tick between two cycles and RX_CYCLE are the same step; RX_CYCLE only has a caller that
is answered when the cycle ends.
The agenda and the waiting call are the model's choice, assumption logs 4 and 6. -/
def Obligations.PollTickAndRxCycleAreTheSameStep : Prop :=
  ∀ (s t : State) (c : Bool), Inv s → BetweenCycles s →
    step { s with agenda := .agent c :: s.agenda } = .next t →
      (t.rxPhase = .idle →
        exec .rxCycle s = .next { t with responses := t.responses ++ [bare .ok] }) ∧
      (t.rxPhase ≠ .idle → exec .rxCycle s = .next { t with waiting := t.waiting ++ [.cycle] })

/-- Assumption log 7 (the model's choice, from R183): during a cycle RX_CYCLE is not enabled; the agent
makes its move and the request stays next. -/
def Obligations.RxCycleDuringCycleStaysAtThePort : Prop :=
  ∀ (s t : State) (c : Bool),
    s.rxRunning = true → s.rxStopPending = false → s.rxPhase ≠ .idle →
    step { s with agenda := .agent c :: s.agenda } = .next t →
      exec .rxCycle s = .next { t with agenda := .request { sel := 0x4200 } :: t.agenda }

/-- Assumption logs 3 and 4 (the model's choice, from R33, R214 and R182): where no answer is listed, the
machine goes on with a free draw in its place. With nothing on the agenda the agent moves as on a tick: with a
stop pending between cycles R182's choice is a free draw, else no draw is taken. -/
def Obligations.FreeDrawsStandForAnswers : Prop :=
  (∀ s : State, BetweenCycles s → s.availAnswers = [] →
    ∃ n : Nat, exec .rxCycle s
      = exec .rxCycle { s with availAnswers := [n], draws := s.draws + 1 }) ∧
  (∀ (s : State) (c : Bool) (rest : List Input), s.agenda = .agent c :: rest →
    s.rxPhase = .ingest → s.readAnswers = [] →
      ∃ r : Option Byte, step s = step { s with readAnswers := [r], draws := s.draws + 1 }) ∧
  (∀ (s : State) (bytes : List Byte), s.writeAnswers = [] →
    ∃ ok : Bool, exec (.txSend bytes) s
      = exec (.txSend bytes) { s with writeAnswers := [ok], draws := s.draws + 1 }) ∧
  (∀ s : State, s.agenda = [] → s.rxPhase = .idle → s.rxRunning = true → s.rxStopPending = true →
    ∃ c : Bool, step s = step { s with agenda := [.agent c], draws := s.draws + 1 }) ∧
  (∀ (s : State) (c : Bool), s.agenda = [] →
    ¬ (s.rxPhase = .idle ∧ s.rxRunning = true ∧ s.rxStopPending = true) →
      step s = step { s with agenda := [.agent c] })

/-- R25: while `rx_running = 0` a poll tick does nothing, and with nothing to do the block stays as it
is.
The agenda is the model's choice, assumption log 4. -/
def Obligations.PollTicksDoNothingWhileStopped : Prop :=
  ∀ (s : State) (c : Bool) (rest : List Input), Inv s → s.rxRunning = false →
    (s.agenda = .agent c :: rest → step s = .next { s with agenda := rest }) ∧
    (s.agenda = [] → step s = .next s)

/-! ### Wire commands -/

/-- R142, R176, R177: an extracted frame of an unhandled id raises no event and is consumed with all
before it.
A wire command's meaning is the model's inference, assumption log 9. -/
def Obligations.UnhandledWireCommandsAreConsumedSilently : Prop :=
  ∀ (s : State) (p : List Byte),
    ∀ i ∈ [Instr.wireNull p, .wireMoveEast p, .wireMoveWest p, .wireMoveNorth p, .wireMoveSouth p,
        .wireStopMotion p, .wirePark p, .wireGetSiteLocation p, .wireDisconnect p, .wireGoto p,
        .wireSync p, .wireSetSiteLocation p, .wireSetDateTime p],
      exec i s = .next { s with q := afterFrame s.q }

/-- R141, R176, R177: an extracted report raises its event, with its two fields bit for bit, and is
consumed with all before it.
A wire command's meaning is the model's inference, assumption log 9. -/
def Obligations.WireReportsRaiseTheirEvent : Prop :=
  ∀ (s : State) (p : List Byte), p.length = 8 →
    exec (.wirePositionReport p) s = .next { s with
      q := afterFrame s.q
      events := s.events ++ [{ kind := .pos, a := fieldA s.cfg p, b := fieldB s.cfg p }] } ∧
    exec (.wireSiteLocationReport p) s = .next { s with
      q := afterFrame s.q
      events := s.events ++ [{ kind := .site, a := fieldA s.cfg p, b := fieldB s.cfg p }] }

/-! ### Hazards -/

/-- R234: a cycle in which no push succeeds extracts nothing.
The listed answers are the model's choice, assumption log 3. -/
def Obligations.NoExtractionWithoutAppend : Prop :=
  ∀ (s t : State), Inv s → BetweenCycles s → exec .rxCycle s = .next t →
    ((∃ as, s.availAnswers = 0 :: as) ∨
      (∃ n as rs, s.availAnswers = n :: as ∧ s.readAnswers = none :: rs) ∨
      s.q.length = s.cfg.capacity) →
      t.q = s.q ∧ t.events = s.events

/-- R235: from a full FIFO with no frame to extract, every step but a reset or a drain while stopped
leaves `Q` and the event history as they are, and the FIFO wedged.
The agenda is the model's choice, assumption log 4. -/
def Obligations.WedgeIsPermanent : Prop :=
  ∀ s t : State, Wedged s → step s = .next t →
    (∀ rest, s.agenda ≠ .reset :: rest) →
    (∀ r rest, s.agenda = .request r :: rest → r.sel = 0x3100 → s.rxRunning = true) →
      t.q = s.q ∧ t.events = s.events ∧ Wedged t

/-- R240: with a capacity below a frame's length no event is ever raised. -/
def Obligations.NoEventWithCapacityBelowAFrame : Prop :=
  ∀ s t : State, Inv s → s.cfg.capacity < 13 → step s = .next t →
    (∀ rest, s.agenda ≠ .reset :: rest) → t.events = s.events

/-- R236: a truncated frame followed by a whole one: the frame extracted begins at the truncated one and
runs into the whole one. -/
def Obligations.TruncatedFrameSwallowsTheNext : Prop :=
  ∀ (p : Params) (id1 id2 : Byte) (payload1 payload2 : List Byte) (k : Nat),
    payload1.length = 8 → payload2.length = 8 → 5 ≤ k → k < 13 →
      let S := (wireFrame id1 payload1).take k ++ wireFrame id2 payload2
      firstFrameEvents p S
        = reportEvents p id1 (payload1.take (k - 5) ++ (wireFrame id2 payload2).take (13 - k)) ∧
      afterFrame S = (wireFrame id2 payload2).drop (13 - k)

/-! ### The whole machine -/

/-- R35: the state after reset. -/
def Obligations.ResetStateHasTheResetValues : Prop :=
  State.reset.q = [] ∧ State.reset.rxRunning = false ∧ State.reset.rxStopPending = false ∧
  State.reset.rxPhase = .idle ∧ State.reset.rxAppended = false ∧ State.reset.events = []

/-- R230, R231: a reset while quiescent gives the reset values and keeps the parameters; during an
operation it is refused.
The reset input and what counts as quiescent are the model's, assumption log 12. -/
def Obligations.ResetOnlyWhileQuiescent : Prop :=
  ∀ (s : State) (rest : List Input), s.agenda = .reset :: rest →
    (s.rxPhase = .idle ∧ s.waiting = [] →
      ∃ t, step s = .next t ∧ t.cfg = s.cfg ∧ t.q = [] ∧ t.rxRunning = false ∧
        t.rxStopPending = false ∧ t.rxPhase = .idle ∧ t.rxAppended = false ∧ t.events = [] ∧
        t.agenda = rest) ∧
    (¬ (s.rxPhase = .idle ∧ s.waiting = []) → step s = .refused .resetDuringOperation)

/-- R201: the numbers of the status codes. -/
def Obligations.StatusCodesAreNumbered : Prop :=
  Status.ok.code = 0x00 ∧ Status.eValidation.code = 0x01 ∧ Status.eTransport.code = 0x02 ∧
  Status.eUnderrun.code = 0x03 ∧ Status.eNoframe.code = 0x04 ∧ Status.eIllegalOp.code = 0x05

/-- The state after reset meets the invariant (R7, R23, R27, R35).
The bookkeeping is the model's choice, assumption logs 5 and 6. -/
def Obligations.ResetStateMeetsTheInvariant : Prop := Inv State.reset

/-- R23, R27 and the bookkeeping of R171, R182: every step keeps the invariant, from every state that
meets it.
The bookkeeping is the model's choice, assumption logs 5 and 6. -/
def Obligations.EveryStepKeepsTheInvariant : Prop :=
  ∀ s t : State, Inv s → step s = .next t → Inv t

/-- R230, R156: no step changes a parameter. -/
def Obligations.ParametersNeverChange : Prop := ∀ s t : State, step s = .next t → t.cfg = s.cfg

/-- R200, R207, R211: no instruction stops the block, no step faults, and the only step refused is a
reset during an operation (R231). -/
def Obligations.OnlyAnEarlyResetIsRefused : Prop :=
  (∀ (i : Instr) (s : State), Runs (exec i s)) ∧
  ∀ s : State, Runs (step s) ∨
    (step s = .refused .resetDuringOperation ∧
      (s.rxPhase ≠ .idle ∨ s.waiting ≠ []) ∧ ∃ rest, s.agenda = .reset :: rest)

/-- R179, R210: a step appends at most one event, and the history only grows. -/
def Obligations.AtMostOneEventPerStep : Prop :=
  ∀ s t : State, step s = .next t → (∀ rest, s.agenda ≠ .reset :: rest) →
    ∃ es : List Event, es.length ≤ 1 ∧ t.events = s.events ++ es

/-- R210 and R20's table: the host operations other than RX_CYCLE emit no event, and only FIFO.PUSH and
FIFO.DRAIN among them write `Q`. RX_CYCLE, a host operation by R79, is the agent's own step: it emits events
and writes `Q` (assumption log 8). -/
def Obligations.HostOperationsEmitNoEvents : Prop :=
  ∀ (i : Instr) (s t : State), isHostOp i → i ≠ .rxCycle → exec i s = .next t →
    t.events = s.events ∧
    ((∀ b, i ≠ .fifoPush b) → (∀ n, i ≠ .fifoDrain n) → t.q = s.q)

/-- R20's table: of the host operations only RX_START and RX_STOP write the control bits. -/
def Obligations.OnlyStartAndStopWriteControlBits : Prop :=
  ∀ (i : Instr) (s t : State), Inv s → i ≠ .rxStart → i ≠ .rxStop → exec i s = .next t →
    t.rxRunning = s.rxRunning ∧ t.rxStopPending = s.rxStopPending

/-- R32: each host operation that the port accepts is owed exactly one response: given at once, or waited
for. An RX_CYCLE held at the port (assumption log 7) is not accepted yet.
The list of waiting calls is the model's choice, assumption log 6. -/
def Obligations.OneResponsePerRequest : Prop :=
  ∀ (i : Instr) (s t : State), isHostOp i → exec i s = .next t →
    (i = .rxCycle → s.rxRunning = false ∨ s.rxStopPending = true ∨ s.rxPhase = .idle) →
      t.responses.length + t.waiting.length = s.responses.length + s.waiting.length + 1

/-- R21, R29: the output histories are written and never read, neither by an instruction nor by a step:
what comes before in them changes nothing and stays before. A reset, which empties them, does the same
whatever they hold.
That responses and sent bytes are recorded is the model's choice, assumption log 2. -/
def Obligations.OutputHistoriesAreNeverRead : Prop :=
  ∀ (s t : State) (rs : List Response) (es : List Event) (ws : List (List Byte)),
    let before := fun u : State =>
      { u with responses := rs ++ u.responses, events := es ++ u.events, sent := ws ++ u.sent }
    (∀ i : Instr, exec i s = .next t → exec i (before s) = .next (before t)) ∧
    ((∀ rest, s.agenda ≠ .reset :: rest) → step s = .next t → step (before s) = .next (before t)) ∧
    (∀ rest, s.agenda = .reset :: rest → step (before s) = step s)
end

