-- ==== Sys2Proof/Laws/State.lean ====
section
/-! SUPPORT. One lemma per field and update of State: what each named update writes, and that it leaves
every other field alone. -/

namespace Sys2Proof.Machine

variable (s : State)

/-! ### `respond` -/

@[simp] theorem respond_cfg (status : Status) (result : Result) :
    (respond status result s).cfg = s.cfg := rfl
@[simp] theorem respond_q (status : Status) (result : Result) :
    (respond status result s).q = s.q := rfl
@[simp] theorem respond_rxRunning (status : Status) (result : Result) :
    (respond status result s).rxRunning = s.rxRunning := rfl
@[simp] theorem respond_rxStopPending (status : Status) (result : Result) :
    (respond status result s).rxStopPending = s.rxStopPending := rfl
@[simp] theorem respond_rxPhase (status : Status) (result : Result) :
    (respond status result s).rxPhase = s.rxPhase := rfl
@[simp] theorem respond_rxAppended (status : Status) (result : Result) :
    (respond status result s).rxAppended = s.rxAppended := rfl
@[simp] theorem respond_events (status : Status) (result : Result) :
    (respond status result s).events = s.events := rfl
@[simp] theorem respond_responses (status : Status) (result : Result) :
    (respond status result s).responses = s.responses ++ [{ status := status, result := result }] := rfl
@[simp] theorem respond_sent (status : Status) (result : Result) :
    (respond status result s).sent = s.sent := rfl
@[simp] theorem respond_waiting (status : Status) (result : Result) :
    (respond status result s).waiting = s.waiting := rfl
@[simp] theorem respond_haltAfter (status : Status) (result : Result) :
    (respond status result s).haltAfter = s.haltAfter := rfl
@[simp] theorem respond_agenda (status : Status) (result : Result) :
    (respond status result s).agenda = s.agenda := rfl
@[simp] theorem respond_availAnswers (status : Status) (result : Result) :
    (respond status result s).availAnswers = s.availAnswers := rfl
@[simp] theorem respond_readAnswers (status : Status) (result : Result) :
    (respond status result s).readAnswers = s.readAnswers := rfl
@[simp] theorem respond_writeAnswers (status : Status) (result : Result) :
    (respond status result s).writeAnswers = s.writeAnswers := rfl
@[simp] theorem respond_draws (status : Status) (result : Result) :
    (respond status result s).draws = s.draws := rfl

/-! ### `raiseStatus` -/

@[simp] theorem raiseStatus_cfg (status : Status) : (raiseStatus status s).cfg = s.cfg := rfl
@[simp] theorem raiseStatus_q (status : Status) : (raiseStatus status s).q = s.q := rfl
@[simp] theorem raiseStatus_rxRunning (status : Status) :
    (raiseStatus status s).rxRunning = s.rxRunning := rfl
@[simp] theorem raiseStatus_rxStopPending (status : Status) :
    (raiseStatus status s).rxStopPending = s.rxStopPending := rfl
@[simp] theorem raiseStatus_rxPhase (status : Status) :
    (raiseStatus status s).rxPhase = s.rxPhase := rfl
@[simp] theorem raiseStatus_rxAppended (status : Status) :
    (raiseStatus status s).rxAppended = s.rxAppended := rfl
@[simp] theorem raiseStatus_events (status : Status) :
    (raiseStatus status s).events = s.events := rfl
@[simp] theorem raiseStatus_responses (status : Status) :
    (raiseStatus status s).responses = s.responses ++ [{ status := status, result := .none }] := rfl
@[simp] theorem raiseStatus_sent (status : Status) : (raiseStatus status s).sent = s.sent := rfl
@[simp] theorem raiseStatus_waiting (status : Status) :
    (raiseStatus status s).waiting = s.waiting := rfl
@[simp] theorem raiseStatus_haltAfter (status : Status) :
    (raiseStatus status s).haltAfter = s.haltAfter := rfl
@[simp] theorem raiseStatus_agenda (status : Status) :
    (raiseStatus status s).agenda = s.agenda := rfl
@[simp] theorem raiseStatus_availAnswers (status : Status) :
    (raiseStatus status s).availAnswers = s.availAnswers := rfl
@[simp] theorem raiseStatus_readAnswers (status : Status) :
    (raiseStatus status s).readAnswers = s.readAnswers := rfl
@[simp] theorem raiseStatus_writeAnswers (status : Status) :
    (raiseStatus status s).writeAnswers = s.writeAnswers := rfl
@[simp] theorem raiseStatus_draws (status : Status) : (raiseStatus status s).draws = s.draws := rfl

/-! ### `emit` -/

@[simp] theorem emit_cfg (e : Event) : (emit e s).cfg = s.cfg := rfl
@[simp] theorem emit_q (e : Event) : (emit e s).q = s.q := rfl
@[simp] theorem emit_rxRunning (e : Event) : (emit e s).rxRunning = s.rxRunning := rfl
@[simp] theorem emit_rxStopPending (e : Event) : (emit e s).rxStopPending = s.rxStopPending := rfl
@[simp] theorem emit_rxPhase (e : Event) : (emit e s).rxPhase = s.rxPhase := rfl
@[simp] theorem emit_rxAppended (e : Event) : (emit e s).rxAppended = s.rxAppended := rfl
@[simp] theorem emit_events (e : Event) : (emit e s).events = s.events ++ [e] := rfl
@[simp] theorem emit_responses (e : Event) : (emit e s).responses = s.responses := rfl
@[simp] theorem emit_sent (e : Event) : (emit e s).sent = s.sent := rfl
@[simp] theorem emit_waiting (e : Event) : (emit e s).waiting = s.waiting := rfl
@[simp] theorem emit_haltAfter (e : Event) : (emit e s).haltAfter = s.haltAfter := rfl
@[simp] theorem emit_agenda (e : Event) : (emit e s).agenda = s.agenda := rfl
@[simp] theorem emit_availAnswers (e : Event) : (emit e s).availAnswers = s.availAnswers := rfl
@[simp] theorem emit_readAnswers (e : Event) : (emit e s).readAnswers = s.readAnswers := rfl
@[simp] theorem emit_writeAnswers (e : Event) : (emit e s).writeAnswers = s.writeAnswers := rfl
@[simp] theorem emit_draws (e : Event) : (emit e s).draws = s.draws := rfl

/-! ### `answerCycles` -/

@[simp] theorem answerCycles_cfg : (answerCycles s).cfg = s.cfg := rfl
@[simp] theorem answerCycles_q : (answerCycles s).q = s.q := rfl
@[simp] theorem answerCycles_rxRunning : (answerCycles s).rxRunning = s.rxRunning := rfl
@[simp] theorem answerCycles_rxStopPending : (answerCycles s).rxStopPending = s.rxStopPending := rfl
@[simp] theorem answerCycles_rxPhase : (answerCycles s).rxPhase = s.rxPhase := rfl
@[simp] theorem answerCycles_rxAppended : (answerCycles s).rxAppended = s.rxAppended := rfl
@[simp] theorem answerCycles_events : (answerCycles s).events = s.events := rfl
@[simp] theorem answerCycles_responses :
    (answerCycles s).responses = s.responses ++ (s.waiting.filter Waiter.isCycle).map Waiter.response := rfl
@[simp] theorem answerCycles_sent : (answerCycles s).sent = s.sent := rfl
@[simp] theorem answerCycles_waiting :
    (answerCycles s).waiting = s.waiting.filter fun w => !w.isCycle := rfl
@[simp] theorem answerCycles_haltAfter : (answerCycles s).haltAfter = s.haltAfter := rfl
@[simp] theorem answerCycles_agenda : (answerCycles s).agenda = s.agenda := rfl
@[simp] theorem answerCycles_availAnswers : (answerCycles s).availAnswers = s.availAnswers := rfl
@[simp] theorem answerCycles_readAnswers : (answerCycles s).readAnswers = s.readAnswers := rfl
@[simp] theorem answerCycles_writeAnswers : (answerCycles s).writeAnswers = s.writeAnswers := rfl
@[simp] theorem answerCycles_draws : (answerCycles s).draws = s.draws := rfl

/-! ### `halt` -/

@[simp] theorem halt_cfg : (halt s).cfg = s.cfg := rfl
@[simp] theorem halt_q : (halt s).q = s.q := rfl
@[simp] theorem halt_rxRunning : (halt s).rxRunning = false := rfl
@[simp] theorem halt_rxStopPending : (halt s).rxStopPending = false := rfl
@[simp] theorem halt_rxPhase : (halt s).rxPhase = s.rxPhase := rfl
@[simp] theorem halt_rxAppended : (halt s).rxAppended = s.rxAppended := rfl
@[simp] theorem halt_events : (halt s).events = s.events := rfl
@[simp] theorem halt_responses :
    (halt s).responses = s.responses ++ (s.waiting.filter fun w => !w.isCycle).map Waiter.response := rfl
@[simp] theorem halt_sent : (halt s).sent = s.sent := rfl
@[simp] theorem halt_waiting : (halt s).waiting = s.waiting.filter Waiter.isCycle := rfl
@[simp] theorem halt_haltAfter : (halt s).haltAfter = false := rfl
@[simp] theorem halt_agenda : (halt s).agenda = s.agenda := rfl
@[simp] theorem halt_availAnswers : (halt s).availAnswers = s.availAnswers := rfl
@[simp] theorem halt_readAnswers : (halt s).readAnswers = s.readAnswers := rfl
@[simp] theorem halt_writeAnswers : (halt s).writeAnswers = s.writeAnswers := rfl
@[simp] theorem halt_draws : (halt s).draws = s.draws := rfl

/-! ### `holdRequest` -/

@[simp] theorem holdRequest_cfg (r : Request) : (holdRequest r s).cfg = s.cfg := rfl
@[simp] theorem holdRequest_q (r : Request) : (holdRequest r s).q = s.q := rfl
@[simp] theorem holdRequest_rxRunning (r : Request) :
    (holdRequest r s).rxRunning = s.rxRunning := rfl
@[simp] theorem holdRequest_rxStopPending (r : Request) :
    (holdRequest r s).rxStopPending = s.rxStopPending := rfl
@[simp] theorem holdRequest_rxPhase (r : Request) : (holdRequest r s).rxPhase = s.rxPhase := rfl
@[simp] theorem holdRequest_rxAppended (r : Request) :
    (holdRequest r s).rxAppended = s.rxAppended := rfl
@[simp] theorem holdRequest_events (r : Request) : (holdRequest r s).events = s.events := rfl
@[simp] theorem holdRequest_responses (r : Request) :
    (holdRequest r s).responses = s.responses := rfl
@[simp] theorem holdRequest_sent (r : Request) : (holdRequest r s).sent = s.sent := rfl
@[simp] theorem holdRequest_waiting (r : Request) : (holdRequest r s).waiting = s.waiting := rfl
@[simp] theorem holdRequest_haltAfter (r : Request) :
    (holdRequest r s).haltAfter = s.haltAfter := rfl
@[simp] theorem holdRequest_agenda (r : Request) :
    (holdRequest r s).agenda = .request r :: s.agenda := rfl
@[simp] theorem holdRequest_availAnswers (r : Request) :
    (holdRequest r s).availAnswers = s.availAnswers := rfl
@[simp] theorem holdRequest_readAnswers (r : Request) :
    (holdRequest r s).readAnswers = s.readAnswers := rfl
@[simp] theorem holdRequest_writeAnswers (r : Request) :
    (holdRequest r s).writeAnswers = s.writeAnswers := rfl
@[simp] theorem holdRequest_draws (r : Request) : (holdRequest r s).draws = s.draws := rfl

/-! ### `placeRequest` -/

@[simp] theorem placeRequest_cfg (r : Request) : (placeRequest r s).cfg = s.cfg := rfl
@[simp] theorem placeRequest_q (r : Request) : (placeRequest r s).q = s.q := rfl
@[simp] theorem placeRequest_rxRunning (r : Request) :
    (placeRequest r s).rxRunning = s.rxRunning := rfl
@[simp] theorem placeRequest_rxStopPending (r : Request) :
    (placeRequest r s).rxStopPending = s.rxStopPending := rfl
@[simp] theorem placeRequest_rxPhase (r : Request) : (placeRequest r s).rxPhase = s.rxPhase := rfl
@[simp] theorem placeRequest_rxAppended (r : Request) :
    (placeRequest r s).rxAppended = s.rxAppended := rfl
@[simp] theorem placeRequest_events (r : Request) : (placeRequest r s).events = s.events := rfl
@[simp] theorem placeRequest_responses (r : Request) :
    (placeRequest r s).responses = s.responses := rfl
@[simp] theorem placeRequest_sent (r : Request) : (placeRequest r s).sent = s.sent := rfl
@[simp] theorem placeRequest_waiting (r : Request) : (placeRequest r s).waiting = s.waiting := rfl
@[simp] theorem placeRequest_haltAfter (r : Request) :
    (placeRequest r s).haltAfter = s.haltAfter := rfl
@[simp] theorem placeRequest_agenda (r : Request) :
    (placeRequest r s).agenda = .request r :: s.agenda := rfl
@[simp] theorem placeRequest_availAnswers (r : Request) :
    (placeRequest r s).availAnswers = s.availAnswers := rfl
@[simp] theorem placeRequest_readAnswers (r : Request) :
    (placeRequest r s).readAnswers = s.readAnswers := rfl
@[simp] theorem placeRequest_writeAnswers (r : Request) :
    (placeRequest r s).writeAnswers = s.writeAnswers := rfl
@[simp] theorem placeRequest_draws (r : Request) : (placeRequest r s).draws = s.draws := rfl

/-! ### `settleAvail` -/

@[simp] theorem settleAvail_cfg (n : Nat) : (settleAvail n s).cfg = s.cfg := rfl
@[simp] theorem settleAvail_q (n : Nat) : (settleAvail n s).q = s.q := rfl
@[simp] theorem settleAvail_rxRunning (n : Nat) : (settleAvail n s).rxRunning = s.rxRunning := rfl
@[simp] theorem settleAvail_rxStopPending (n : Nat) :
    (settleAvail n s).rxStopPending = s.rxStopPending := rfl
@[simp] theorem settleAvail_rxPhase (n : Nat) : (settleAvail n s).rxPhase = s.rxPhase := rfl
@[simp] theorem settleAvail_rxAppended (n : Nat) :
    (settleAvail n s).rxAppended = s.rxAppended := rfl
@[simp] theorem settleAvail_events (n : Nat) : (settleAvail n s).events = s.events := rfl
@[simp] theorem settleAvail_responses (n : Nat) : (settleAvail n s).responses = s.responses := rfl
@[simp] theorem settleAvail_sent (n : Nat) : (settleAvail n s).sent = s.sent := rfl
@[simp] theorem settleAvail_waiting (n : Nat) : (settleAvail n s).waiting = s.waiting := rfl
@[simp] theorem settleAvail_haltAfter (n : Nat) : (settleAvail n s).haltAfter = s.haltAfter := rfl
@[simp] theorem settleAvail_agenda (n : Nat) : (settleAvail n s).agenda = s.agenda := rfl
@[simp] theorem settleAvail_availAnswers (n : Nat) :
    (settleAvail n s).availAnswers = s.availAnswers ++ [n] := rfl
@[simp] theorem settleAvail_readAnswers (n : Nat) :
    (settleAvail n s).readAnswers = s.readAnswers := rfl
@[simp] theorem settleAvail_writeAnswers (n : Nat) :
    (settleAvail n s).writeAnswers = s.writeAnswers := rfl
@[simp] theorem settleAvail_draws (n : Nat) : (settleAvail n s).draws = s.draws := rfl

/-! ### `settleReads` -/

@[simp] theorem settleReads_cfg (rs : List (Option Byte)) : (settleReads rs s).cfg = s.cfg := rfl
@[simp] theorem settleReads_q (rs : List (Option Byte)) : (settleReads rs s).q = s.q := rfl
@[simp] theorem settleReads_rxRunning (rs : List (Option Byte)) :
    (settleReads rs s).rxRunning = s.rxRunning := rfl
@[simp] theorem settleReads_rxStopPending (rs : List (Option Byte)) :
    (settleReads rs s).rxStopPending = s.rxStopPending := rfl
@[simp] theorem settleReads_rxPhase (rs : List (Option Byte)) :
    (settleReads rs s).rxPhase = s.rxPhase := rfl
@[simp] theorem settleReads_rxAppended (rs : List (Option Byte)) :
    (settleReads rs s).rxAppended = s.rxAppended := rfl
@[simp] theorem settleReads_events (rs : List (Option Byte)) :
    (settleReads rs s).events = s.events := rfl
@[simp] theorem settleReads_responses (rs : List (Option Byte)) :
    (settleReads rs s).responses = s.responses := rfl
@[simp] theorem settleReads_sent (rs : List (Option Byte)) : (settleReads rs s).sent = s.sent := rfl
@[simp] theorem settleReads_waiting (rs : List (Option Byte)) :
    (settleReads rs s).waiting = s.waiting := rfl
@[simp] theorem settleReads_haltAfter (rs : List (Option Byte)) :
    (settleReads rs s).haltAfter = s.haltAfter := rfl
@[simp] theorem settleReads_agenda (rs : List (Option Byte)) :
    (settleReads rs s).agenda = s.agenda := rfl
@[simp] theorem settleReads_availAnswers (rs : List (Option Byte)) :
    (settleReads rs s).availAnswers = s.availAnswers := rfl
@[simp] theorem settleReads_readAnswers (rs : List (Option Byte)) :
    (settleReads rs s).readAnswers = s.readAnswers ++ rs := rfl
@[simp] theorem settleReads_writeAnswers (rs : List (Option Byte)) :
    (settleReads rs s).writeAnswers = s.writeAnswers := rfl
@[simp] theorem settleReads_draws (rs : List (Option Byte)) :
    (settleReads rs s).draws = s.draws := rfl

/-! ### `settleWrite` -/

@[simp] theorem settleWrite_cfg (ok : Bool) : (settleWrite ok s).cfg = s.cfg := rfl
@[simp] theorem settleWrite_q (ok : Bool) : (settleWrite ok s).q = s.q := rfl
@[simp] theorem settleWrite_rxRunning (ok : Bool) :
    (settleWrite ok s).rxRunning = s.rxRunning := rfl
@[simp] theorem settleWrite_rxStopPending (ok : Bool) :
    (settleWrite ok s).rxStopPending = s.rxStopPending := rfl
@[simp] theorem settleWrite_rxPhase (ok : Bool) : (settleWrite ok s).rxPhase = s.rxPhase := rfl
@[simp] theorem settleWrite_rxAppended (ok : Bool) :
    (settleWrite ok s).rxAppended = s.rxAppended := rfl
@[simp] theorem settleWrite_events (ok : Bool) : (settleWrite ok s).events = s.events := rfl
@[simp] theorem settleWrite_responses (ok : Bool) :
    (settleWrite ok s).responses = s.responses := rfl
@[simp] theorem settleWrite_sent (ok : Bool) : (settleWrite ok s).sent = s.sent := rfl
@[simp] theorem settleWrite_waiting (ok : Bool) : (settleWrite ok s).waiting = s.waiting := rfl
@[simp] theorem settleWrite_haltAfter (ok : Bool) :
    (settleWrite ok s).haltAfter = s.haltAfter := rfl
@[simp] theorem settleWrite_agenda (ok : Bool) : (settleWrite ok s).agenda = s.agenda := rfl
@[simp] theorem settleWrite_availAnswers (ok : Bool) :
    (settleWrite ok s).availAnswers = s.availAnswers := rfl
@[simp] theorem settleWrite_readAnswers (ok : Bool) :
    (settleWrite ok s).readAnswers = s.readAnswers := rfl
@[simp] theorem settleWrite_writeAnswers (ok : Bool) :
    (settleWrite ok s).writeAnswers = s.writeAnswers ++ [ok] := rfl
@[simp] theorem settleWrite_draws (ok : Bool) : (settleWrite ok s).draws = s.draws := rfl

end Sys2Proof.Machine
end

