-- ==== Sys2Proof/Laws/Ops.lean ====
section
/-! SUPPORT. What each shared operation does, said once: the FIFO's mutators, extraction, the end of a
cycle, INGEST, the receive agent. Later proofs cite these instead of unfolding the operations. -/

namespace Sys2Proof.Machine

/-! ### The FIFO -/

theorem pushByte_of_lt {n : Nat} {q : List Byte} (b : Byte) (h : q.length < n) :
    pushByte n q b = (q ++ [b], true) := by simp [pushByte, h]

theorem pushByte_of_full {n : Nat} {q : List Byte} (b : Byte) (h : n ≤ q.length) :
    pushByte n q b = (q, false) := by simp [pushByte, Nat.not_lt.mpr h]

/-- A push keeps the bound of R23. -/
theorem pushByte_length_le {n : Nat} {q : List Byte} (b : Byte) (h : q.length ≤ n) :
    (pushByte n q b).1.length ≤ n := by
  unfold pushByte
  split
  · simp; omega
  · exact h

theorem drainBytes_of_le {q : List Byte} {n : Nat} (h : n ≤ q.length) :
    drainBytes q n = some (q.drop n) := by simp [drainBytes, Nat.not_lt.mpr h]

theorem drainBytes_of_gt {q : List Byte} {n : Nat} (h : q.length < n) : drainBytes q n = none := by
  simp [drainBytes, h]

/-- A drain keeps the bound of R23. -/
theorem drainBytes_length_le {q q' : List Byte} {n : Nat} (h : drainBytes q n = some q') :
    q'.length ≤ q.length := by
  unfold drainBytes at h
  split at h
  · cases h
  · cases h; simp

theorem fifoPort_running {s : State} (operation : State → State) (h : s.rxRunning = true) :
    fifoPort operation s = illegalOp s := by simp [fifoPort, h]

theorem fifoPort_stopped {s : State} (operation : State → State) (h : s.rxRunning = false) :
    fifoPort operation s = operation s := by simp [fifoPort, h]

/-! ### Extraction -/

/-- A frame to extract lies whole within the bytes, so the framer's drain never underruns (R177). -/
theorem frameStart_bound {S : List Byte} {i : Nat} (h : frameStart S = some i) :
    i + 13 ≤ S.length := by
  unfold frameStart frameLen at h
  split at h
  · cases h
  · split at h
    · cases h; omega
    · cases h

theorem findPreamble_isPreamble {S : List Byte} {i : Nat} (h : findPreamble S = some i) :
    (S.drop i).take 4 = preamble := by
  induction S generalizing i with
  | nil => cases h
  | cons b rest ih =>
    rw [findPreamble] at h
    split at h
    · cases h; assumption
    · cases hr : findPreamble rest with
      | none => simp [hr] at h
      | some j => simp [hr] at h; subst h; simpa using ih hr

/-- What stands where a frame starts. -/
theorem frameStart_isPreamble {S : List Byte} {i : Nat} (h : frameStart S = some i) :
    (S.drop i).take 4 = preamble := by
  unfold frameStart at h
  split at h
  · cases h
  · split at h
    · cases h; exact findPreamble_isPreamble ‹_›
    · cases h

/-- Dispatch writes the event history only (R176). -/
theorem dispatchFrame_eq (F : List Byte) (s : State) (h : F.take 4 = preamble) :
    dispatchFrame F s
      = { s with events := s.events ++ reportEvents s.cfg (F.getD 4 0) ((F.drop 5).take 8) } := by
  simp only [dispatchFrame, decFrame, h, ne_eq, not_true_eq_false, if_false, decKind, reportEvents,
    fieldA, fieldB]
  generalize F.getD 4 0 = id
  by_cases h1 : id = 0xFF
  · simp [h1, emit]
  · by_cases h2 : id = 0xFE
    · simp [h2, emit]
    · simp only [if_neg h1, if_neg h2, List.append_nil]

/-- The discard writes `Q` only (R177). -/
theorem discardFrame_eq (s : State) : discardFrame s = { s with q := afterFrame s.q } := by
  unfold discardFrame afterFrame
  cases h : frameStart s.q with
  | none => rfl
  | some i => simp [frameLen, drainBytes_of_le (frameStart_bound h)]

/-- A consumed frame raises its event and leaves `Q` with everything through its end (R176, R177). -/
theorem consumeFrame_eq (F : List Byte) (s : State) (h : F.take 4 = preamble) :
    consumeFrame F s
      = { s with
          events := s.events ++ reportEvents s.cfg (F.getD 4 0) ((F.drop 5).take 8)
          q := afterFrame s.q } := by
  rw [consumeFrame, dispatchFrame_eq F s h, discardFrame_eq]

theorem frameAt_isPreamble {S : List Byte} {i : Nat} (h : frameStart S = some i) :
    (frameAt S i).take 4 = preamble := by
  simpa [frameAt, frameLen, List.take_take] using frameStart_isPreamble h

/-- EXTRACT writes the event history and `Q`, by the first frame (R174 to R178). -/
theorem extract_eq (s : State) :
    extract s
      = { s with events := s.events ++ firstFrameEvents s.cfg s.q, q := afterFrame s.q } := by
  unfold extract firstFrameEvents
  cases h : frameStart s.q with
  | none => simp [afterFrame, h]
  | some i =>
    simp only [consumeFrame_eq _ _ (frameAt_isPreamble h)]
    simp [frameAt, frameLen, List.drop_take, List.take_take, List.getD_eq_getElem?_getD]

theorem afterFrame_length_le (S : List Byte) : (afterFrame S).length ≤ S.length := by
  unfold afterFrame; split <;> simp

/-- At most one event per frame (R176). -/
theorem firstFrameEvents_length_le (p : Params) (S : List Byte) :
    (firstFrameEvents p S).length ≤ 1 := by
  unfold firstFrameEvents reportEvents
  split
  · simp
  · split
    · simp
    · split <;> simp

/-! ### INGEST -/

/-- INGEST's loop over answers that end in None: the bytes go in until the FIFO is full, the others are
lost, and `rx_appended` says whether one went in (R173). -/
theorem ingestLoop_ended (n : Nat) (bs : List Byte) (rest : List (Option Byte)) (q : List Byte)
    (appended : Bool) (h : q.length ≤ n) :
    ingestLoop n (bs.map some ++ none :: rest) q appended
      = { q := (q ++ bs).take n, appended := appended || (!bs.isEmpty && decide (q.length < n)),
          rest := rest, ended := true } := by
  induction bs generalizing q appended with
  | nil => simp [ingestLoop, List.take_of_length_le h]
  | cons b bs ih =>
    rw [List.map_cons, List.cons_append, ingestLoop, ih _ _ (pushByte_length_le b h)]
    by_cases hq : q.length < n
    · simp [pushByte_of_lt b hq, hq]
    · obtain rfl : q.length = n := by omega
      simp [pushByte_of_full b le_rfl]

/-- INGEST's loop over answers none of which is None: it does not end (R173, R239). -/
theorem ingestLoop_open (n : Nat) (bs : List Byte) (q : List Byte) (appended : Bool)
    (h : q.length ≤ n) :
    ingestLoop n (bs.map some) q appended
      = { q := (q ++ bs).take n, appended := appended || (!bs.isEmpty && decide (q.length < n)),
          rest := [], ended := false } := by
  induction bs generalizing q appended with
  | nil => simp [ingestLoop, List.take_of_length_le h]
  | cons b bs ih =>
    rw [List.map_cons, ingestLoop, ih _ _ (pushByte_length_le b h)]
    by_cases hq : q.length < n
    · simp [pushByte_of_lt b hq, hq]
    · obtain rfl : q.length = n := by omega
      simp [pushByte_of_full b le_rfl]

/-- Whatever the answers are, INGEST's loop keeps the bound of R23. -/
theorem ingestLoop_length_le (n : Nat) (rs : List (Option Byte)) (q : List Byte) (appended : Bool)
    (h : q.length ≤ n) : (ingestLoop n rs q appended).q.length ≤ n := by
  induction rs generalizing q appended with
  | nil => exact h
  | cons r rs ih =>
    cases r with
    | none => exact h
    | some b => exact ih _ _ (pushByte_length_le b h)

/-- Into a full FIFO nothing goes, and `rx_appended` is not set (R173, R235). -/
theorem ingestLoop_full (n : Nat) (rs : List (Option Byte)) (q : List Byte) (appended : Bool)
    (h : n ≤ q.length) :
    (ingestLoop n rs q appended).q = q ∧ (ingestLoop n rs q appended).appended = appended := by
  induction rs with
  | nil => exact ⟨rfl, rfl⟩
  | cons r rs ih =>
    cases r with
    | none => exact ⟨rfl, rfl⟩
    | some b => simpa [ingestLoop, pushByte_of_full b h] using ih

end Sys2Proof.Machine
end

