-- ==== Sys2Proof/Laws/Agent.lean ====
section
/-! SUPPORT. What the receive agent's moves do, said once: the end of a cycle, INGEST over settled answers,
and an inversion of a cycle and of an agent step whatever the answers are. -/

namespace Sys2Proof.Machine

/-- The end of a cycle (R172, R182): one extraction if a byte was appended, the phase back to IDLE, the
RX_CYCLE calls answered, and at a last cycle the halt with its RX_STOP calls answered. -/
theorem finishCycle_eq (s : State) :
    finishCycle s = { s with
      rxPhase := .idle, rxAppended := false
      q := if s.rxAppended then afterFrame s.q else s.q
      events := s.events ++ if s.rxAppended then firstFrameEvents s.cfg s.q else []
      rxRunning := s.rxRunning && !s.haltAfter
      rxStopPending := s.rxStopPending && !s.haltAfter
      haltAfter := false
      waiting := if s.haltAfter then [] else s.waiting.filter fun w => !w.isCycle
      responses := s.responses ++ (s.waiting.filter Waiter.isCycle).map Waiter.response
        ++ if s.haltAfter then (s.waiting.filter fun w => !w.isCycle).map Waiter.response else [] } := by
  cases ha : s.rxAppended <;> cases hh : s.haltAfter <;>
    simp [finishCycle, extract_eq, ha, hh, answerCycles, halt]

/-- INGEST over settled answers that end in None goes on to the end of the cycle (R172, R173). -/
theorem ingest_ended (s : State) (bs : List Byte) (rs : List (Option Byte))
    (hr : s.readAnswers = bs.map some ++ none :: rs) (hq : Fifo.wf s.cfg s.q) :
    ingest s = finishCycle { s with
      readAnswers := rs
      q := (s.q ++ bs).take s.cfg.capacity
      rxAppended := s.rxAppended || (!bs.isEmpty && decide (s.q.length < s.cfg.capacity)) } := by
  simp [ingest, hr, ingestLoop_ended _ _ _ _ _ hq]

/-- INGEST over settled answers none of which is None stays in INGEST (R239). -/
theorem ingest_open (s : State) (bs : List Byte) (hr : s.readAnswers = bs.map some)
    (hq : Fifo.wf s.cfg s.q) :
    ingest s = { s with
      readAnswers := []
      q := (s.q ++ bs).take s.cfg.capacity
      rxAppended := s.rxAppended || (!bs.isEmpty && decide (s.q.length < s.cfg.capacity)) } := by
  simp [ingest, hr, ingestLoop_open _ _ _ _ hq]

/-- `t` is `s` after some of INGEST: answers and draws were used, and `Q` and `rx_appended` are what
INGEST's loop makes of some answers. -/
def IngestedFrom (s t : State) : Prop :=
  ∃ (rs : List (Option Byte)) (avail : List Nat) (reads : List (Option Byte)) (draws : Nat),
    t = { s with
      q := (ingestLoop s.cfg.capacity rs s.q s.rxAppended).q
      rxAppended := (ingestLoop s.cfg.capacity rs s.q s.rxAppended).appended
      availAnswers := avail, readAnswers := reads, draws := draws }

theorem ingest_cases (s : State) :
    ∃ t, IngestedFrom s t ∧ (ingest s = finishCycle t ∨ ingest s = t) := by
  refine ⟨_, ⟨s.readAnswers, s.availAnswers,
    (ingestLoop s.cfg.capacity s.readAnswers s.q s.rxAppended).rest, s.draws, rfl⟩, ?_⟩
  by_cases h : (ingestLoop s.cfg.capacity s.readAnswers s.q s.rxAppended).ended = true
  · exact .inl (by simp only [ingest, h, if_true])
  · exact .inr (by simp only [ingest, h]; rfl)

/-- A cycle in INGEST that goes on either ends or stays there (R173, R239). -/
theorem resumeIngest_cases (s : State) :
    ∃ t, IngestedFrom s t ∧ (resumeIngest s = finishCycle t ∨ resumeIngest s = t) := by
  unfold resumeIngest
  split
  · exact ingest_cases s
  · obtain ⟨t, ⟨rs, a, r, d, rfl⟩, h⟩ :=
      ingest_cases { s with readAnswers := [Config.freeRead s.draws], draws := s.draws + 1 }
    exact ⟨_, ⟨rs, a, r, d, rfl⟩, h⟩

/-- A cycle begins in INGEST with nothing appended, and then ends or stays there (R172). -/
theorem runCycle_cases (s : State) :
    ∃ t, IngestedFrom { s with rxPhase := .ingest, rxAppended := false } t ∧
      (runCycle s = finishCycle t ∨ runCycle s = t) := by
  obtain ⟨avail, draws, h⟩ : ∃ avail draws,
      (drawAvail { s with rxPhase := .ingest, rxAppended := false }).2
        = { s with rxPhase := .ingest, rxAppended := false, availAnswers := avail, draws := draws } := by
    unfold drawAvail
    split
    · exact ⟨_, _, rfl⟩
    · exact ⟨_, _, rfl⟩
  unfold runCycle
  simp only [h]
  split
  · obtain ⟨t, ⟨rs, a, r, d, rfl⟩, h'⟩ := ingest_cases
      { s with rxPhase := .ingest, rxAppended := false, availAnswers := avail, draws := draws }
    exact ⟨_, ⟨rs, a, r, d, rfl⟩, h'⟩
  · exact ⟨_, ⟨[], avail, s.readAnswers, draws, rfl⟩, .inl rfl⟩

/-- The receive agent's move, inverted: nothing, HALT, the end of a cycle at EXTRACT, or some of INGEST,
after which the cycle ends or waits. A cycle starts from IDLE while the agent runs, as the last one if a
stop is pending (R182, R183). -/
theorem agentStep_cases (c : Bool) (s : State) :
    (s.rxPhase = .idle ∧ s.rxRunning = false ∧ agentStep c s = s) ∨
    (s.rxPhase = .idle ∧ s.rxRunning = true ∧ s.rxStopPending = true ∧ agentStep c s = halt s) ∨
    (s.rxPhase = .extract ∧ agentStep c s = finishCycle s) ∨
    (∃ s0 t, ((s.rxPhase = .ingest ∧ s0 = s) ∨
        (s.rxPhase = .idle ∧ s.rxRunning = true ∧
          ((s.rxStopPending = false ∧ s0 = { s with rxPhase := .ingest, rxAppended := false }) ∨
           (s.rxStopPending = true ∧
            s0 = { s with rxPhase := .ingest, rxAppended := false, haltAfter := true })))) ∧
      IngestedFrom s0 t ∧ (agentStep c s = finishCycle t ∨ agentStep c s = t)) := by
  cases hp : s.rxPhase with
  | ingest =>
    obtain ⟨t, ht, h⟩ := resumeIngest_cases s
    exact .inr (.inr (.inr ⟨s, t, .inl ⟨rfl, rfl⟩, ht, by simpa [agentStep, hp] using h⟩))
  | extract => exact .inr (.inr (.inl ⟨rfl, by simp [agentStep, hp]⟩))
  | idle =>
    rcases Bool.eq_false_or_eq_true s.rxRunning with hr | hr
    · rcases Bool.eq_false_or_eq_true s.rxStopPending with hs | hs
      · cases c with
        | false => exact .inr (.inl ⟨rfl, hr, hs, by simp [agentStep, hp, hr, hs]⟩)
        | true =>
          obtain ⟨t, ht, h⟩ := runCycle_cases { s with haltAfter := true }
          exact .inr (.inr (.inr ⟨_, t, .inr ⟨rfl, hr, .inr ⟨hs, rfl⟩⟩, ht,
            by simpa [agentStep, hp, hr, hs] using h⟩))
      · obtain ⟨t, ht, h⟩ := runCycle_cases s
        exact .inr (.inr (.inr ⟨_, t, .inr ⟨rfl, hr, .inl ⟨hs, rfl⟩⟩, ht,
          by simpa [agentStep, hp, hr, hs] using h⟩))
    · exact .inl ⟨rfl, hr, by simp [agentStep, hp, hr]⟩

/-- Where nothing outside settles the choice, the agent's move is one of its moves, after at most one
draw. -/
theorem agentFreeStep_cases (s : State) :
    ∃ c draws, agentFreeStep s = agentStep c { s with draws := draws } := by
  unfold agentFreeStep
  split
  · exact ⟨_, _, rfl⟩
  · exact ⟨false, s.draws, rfl⟩

/-! ### What an agent move leaves alone -/

/-- An agent move as seen from `Q` and the event history: some bytes go in, and then the first frame is
extracted or not; parameters, agenda and sent bytes stay. -/
def AgentMove (s t : State) : Prop :=
  t.cfg = s.cfg ∧ t.agenda = s.agenda ∧ t.sent = s.sent ∧
    ∃ (rs : List (Option Byte)) (appended : Bool),
      let q := (ingestLoop s.cfg.capacity rs s.q appended).q
      (t.q = q ∧ t.events = s.events) ∨
        (t.q = afterFrame q ∧ t.events = s.events ++ firstFrameEvents s.cfg q)

theorem ingested_move {s t : State} (h : IngestedFrom s t) :
    AgentMove s t ∧ AgentMove s (finishCycle t) := by
  obtain ⟨rs, avail, reads, draws, rfl⟩ := h
  refine ⟨⟨rfl, rfl, rfl, rs, _, .inl ⟨rfl, rfl⟩⟩, ?_⟩
  rw [finishCycle_eq]
  refine ⟨rfl, rfl, rfl, rs, s.rxAppended, ?_⟩
  cases (ingestLoop s.cfg.capacity rs s.q s.rxAppended).appended
  · exact .inl ⟨by simp, by simp⟩
  · exact .inr ⟨by simp, by simp⟩

theorem finishCycle_move (s : State) : AgentMove s (finishCycle s) :=
  (ingested_move (t := s) ⟨[], s.availAnswers, s.readAnswers, s.draws, rfl⟩).2

theorem runCycle_move (s : State) : AgentMove s (runCycle s) := by
  obtain ⟨t, ht, h | h⟩ := runCycle_cases s <;> rw [h]
  · exact (ingested_move ht).2
  · exact (ingested_move ht).1

theorem agentStep_move (c : Bool) (s : State) : AgentMove s (agentStep c s) := by
  obtain ⟨_, _, h⟩ | ⟨_, _, _, h⟩ | ⟨_, h⟩ | ⟨s0, t, h0, ht, h⟩ := agentStep_cases c s
  · rw [h]
    exact ⟨rfl, rfl, rfl, [], false, .inl ⟨rfl, rfl⟩⟩
  · rw [h]
    exact ⟨rfl, rfl, rfl, [], false, .inl ⟨rfl, rfl⟩⟩
  · rw [h]
    exact finishCycle_move s
  · have hm : AgentMove s t ∧ AgentMove s (finishCycle t) := by
      obtain ⟨_, rfl⟩ | ⟨_, _, ⟨_, rfl⟩ | ⟨_, rfl⟩⟩ := h0 <;>
        exact ⟨(ingested_move ht).1, (ingested_move ht).2⟩
    obtain h | h := h <;> rw [h]
    · exact hm.2
    · exact hm.1

/-- An agent move keeps the bound of R23. -/
theorem AgentMove.length_le {s t : State} (h : AgentMove s t) (hq : Fifo.wf s.cfg s.q) :
    Fifo.wf t.cfg t.q := by
  obtain ⟨hc, _, _, rs, appended, hm⟩ := h
  have hl := ingestLoop_length_le s.cfg.capacity rs s.q appended hq
  rw [Fifo.wf, hc]
  obtain ⟨h, _⟩ | ⟨h, _⟩ := hm <;> rw [h]
  · exact hl
  · exact (afterFrame_length_le _).trans hl

/-- An agent move adds at most one event (R179). -/
theorem AgentMove.events {s t : State} (h : AgentMove s t) :
    ∃ es : List Event, es.length ≤ 1 ∧ t.events = s.events ++ es := by
  obtain ⟨_, _, _, rs, appended, ⟨_, h⟩ | ⟨_, h⟩⟩ := h
  · exact ⟨[], by simp, by simp [h]⟩
  · exact ⟨_, firstFrameEvents_length_le _ _, h⟩

/-- On a full FIFO that holds no frame to extract, an agent move changes neither `Q` nor the event
history (R235). -/
theorem AgentMove.wedged {s t : State} (h : AgentMove s t) (hw : Wedged s) :
    t.q = s.q ∧ t.events = s.events := by
  obtain ⟨_, _, _, rs, appended, hm⟩ := h
  simp only [(ingestLoop_full s.cfg.capacity rs s.q appended hw.1).1] at hm
  simpa [afterFrame, firstFrameEvents, hw.2] using hm

end Sys2Proof.Machine
end

