-- ==== Sys2Proof/Laws/Decode.lean ====
section
/-! SUPPORT. What a decoded request and a decoded frame are, read off the two tables once. -/

namespace Sys2Proof

theorem mem_of_lookup {α β : Type} [BEq α] [LawfulBEq α] {l : List (α × β)} {a : α} {b : β}
    (h : l.lookup a = some b) : (a, b) ∈ l := by
  induction l with
  | nil => cases h
  | cons x l ih =>
    obtain ⟨x1, x2⟩ := x
    rw [List.lookup_cons] at h
    split at h
    · next hx => cases h; simp [eq_of_beq hx]
    · exact List.mem_cons_of_mem _ (ih h)

/-- A request decodes to a host operation whose row is the request's selector (R79). -/
theorem decodeRequest_row {r : Request} {i : Instr} (h : decodeRequest r = .ok i) :
    Machine.isHostOp i ∧ i.tableWord = (16, r.sel.toNat) := by
  unfold decodeRequest at h
  split at h
  · rename_i operation hl
    cases h
    have hm := mem_of_lookup hl
    generalize r.sel = sel at hm
    simp only [selectorTable, List.cons_append, List.nil_append, List.mem_cons, Prod.mk.injEq,
      List.not_mem_nil, or_false] at hm
    rcases hm with h|h|h|h|h|h|h|h|h|h|h|h|h|h|h|h|h|h|h|h|h|h|h|h|h|h|h|h|h <;>
      (obtain ⟨rfl, rfl⟩ := h; exact ⟨⟨_, rfl⟩, rfl⟩)
  · cases h

/-- A frame decodes to a wire command, no host operation, with 8 payload bytes (R65, R67). -/
theorem decodeFrame_isWire {bytes : List Byte} {i : Instr} (h : decodeFrame bytes = .ok i) :
    ¬ Machine.isHostOp i ∧ bytes.length = 13 ∧ bytes.take 4 = preamble := by
  unfold decodeFrame at h
  split at h
  · cases h
  · split at h
    · cases h
    · rename_i hlen hpre
      refine ⟨?_, by simpa [frameLen] using hlen, by simpa using hpre⟩
      split at h
      · rename_i cmd hl
        cases h
        have hm := mem_of_lookup hl
        generalize bytes.drop 5 = p
        generalize bytes.getD 4 0 = id at hm
        simp only [wireTable, List.mem_cons, Prod.mk.injEq, List.not_mem_nil, or_false] at hm
        rcases hm with h|h|h|h|h|h|h|h|h|h|h|h|h|h|h <;>
          (obtain ⟨rfl, rfl⟩ := h; rintro ⟨r, hr⟩; cases hr)
      · cases h

end Sys2Proof
end

