-- ==== Sys2Proof/Laws/Encoder.lean ====
section
/-! SUPPORT. Every encoder is the common procedure of R100 with a command id, a check and a payload of its
own, and these read three parameters only (40_encoder.md R122). -/

namespace Sys2Proof.Machine

/-- Two configurations that agree on the parameters an encoder reads (R122). -/
def SameCodec (p p' : Params) : Prop :=
  p.floatLE = p'.floatLE ∧ p.nanAccept = p'.nanAccept ∧ p.dtBCD = p'.dtBCD

theorem f32bytes_congr {p p' : Params} (h : SameCodec p p') (u : Word) : f32bytes p u = f32bytes p' u := by
  simp only [f32bytes, h.1]

theorem twoFloatPayload_congr {p p' : Params} (h : SameCodec p p') (a b : Word) :
    twoFloatPayload p a b = twoFloatPayload p' a b := by
  simp only [twoFloatPayload, f32bytes_congr h]

theorem nanok_congr {p p' : Params} (h : SameCodec p p') (u : Word) (c : Bool) :
    nanok p u c = nanok p' u c := by simp only [nanok, h.2.1]

theorem raDec_congr {p p' : Params} (h : SameCodec p p') (a b : Word) :
    (inRa p a && inDec p b) = (inRa p' a && inDec p' b) := by
  simp only [inRa, inDec, nanok_congr h]

theorem latLon_congr {p p' : Params} (h : SameCodec p p') (a b : Word) :
    (inLat p a && inLon p b) = (inLat p' a && inLon p' b) := by
  simp only [inLat, inLon, nanok_congr h]

theorem validDt_congr {p p' : Params} (h : SameCodec p p') (y : Half) (mo d hr mi sec : Byte) :
    validDt p y mo d hr mi sec = validDt p' y mo d hr mi sec := by simp only [validDt, h.2.2]

theorem dateTimePayload_congr {p p' : Params} (h : SameCodec p p') (y : Half) (mo d hr mi sec : Byte) :
    dateTimePayload p y mo d hr mi sec = dateTimePayload p' y mo d hr mi sec := by
  simp only [dateTimePayload, yhi, ylo, dtbyte, h.2.2]

/-- What an encoder does (R100, R122). -/
theorem exec_encoder {i : Instr} (h : isEncoder i = true) :
    ∃ (cmd : Byte) (valid : Params → Bool) (payload : Params → List Byte),
      (∀ s : State, exec i s = .next (encodeFrame cmd (valid s.cfg) (payload s.cfg) s)) ∧
      ∀ p p' : Params, SameCodec p p' → valid p = valid p' ∧ payload p = payload p' := by
  cases i with
  | encMoveEast | encMoveWest | encMoveNorth | encMoveSouth | encStopMotion | encPark
  | encGetSiteLocation | encDisconnect =>
    exact ⟨_, fun _ => true, fun _ => zeroPayload, fun _ => rfl, fun _ _ _ => ⟨rfl, rfl⟩⟩
  | encMwtEast | encMwtWest | encMwtNorth | encMwtSouth =>
    exact ⟨_, fun _ => true, fun _ => moveWhileTrackingPayload, fun _ => rfl, fun _ _ _ => ⟨rfl, rfl⟩⟩
  | encGoto a b | encSync a b | encPositionReport a b =>
    exact ⟨_, fun p => inRa p a && inDec p b, fun p => twoFloatPayload p a b, fun _ => rfl,
      fun _ _ hc => ⟨raDec_congr hc a b, twoFloatPayload_congr hc a b⟩⟩
  | encSetSiteLocation a b =>
    exact ⟨_, fun p => inLat p a && inLon p b, fun p => twoFloatPayload p b a, fun _ => rfl,
      fun _ _ hc => ⟨latLon_congr hc a b, twoFloatPayload_congr hc b a⟩⟩
  | encSiteLocationReport a b =>
    exact ⟨_, fun p => inLat p a && inLon p b, fun p => twoFloatPayload p a b, fun _ => rfl,
      fun _ _ hc => ⟨latLon_congr hc a b, twoFloatPayload_congr hc a b⟩⟩
  | encSetDateTime y mo d hr mi sec =>
    exact ⟨_, fun p => validDt p y mo d hr mi sec, fun p => dateTimePayload p y mo d hr mi sec,
      fun _ => rfl, fun _ _ hc => ⟨validDt_congr hc _ _ _ _ _ _, dateTimePayload_congr hc _ _ _ _ _ _⟩⟩
  | dec | fifoPush | fifoDrain | fifoSnapshot | fifoLen | fifoIsEmpty | fifoIsFull | rxStart | rxStop
  | rxCycle | txSend | wireNull | wireMoveEast | wireMoveWest | wireMoveNorth | wireMoveSouth
  | wireStopMotion | wirePark | wireGetSiteLocation | wireDisconnect | wireGoto | wireSync
  | wireSetSiteLocation | wireSetDateTime | wireSiteLocationReport | wirePositionReport => cases h

end Sys2Proof.Machine
end

