-- ==== Sys2Proof/Laws/Exec.lean ====
section
/-! SUPPORT. What an instruction can do, said once for all of them: an inversion of exec, and of step, into
the few shapes of change that the instructions share. -/

namespace Sys2Proof.Machine

/-! ### Small facts -/

/-- Between cycles no RX_CYCLE waits, so the waiting calls are all RX_STOP calls. -/
theorem filter_of_no_cycle {ws : List Waiter} (h : Waiter.cycle ∉ ws) :
    ws.filter Waiter.isCycle = [] ∧ (ws.filter fun w => !w.isCycle) = ws := by
  constructor
  · rw [List.filter_eq_nil_iff]
    intro x hx
    cases x with
    | cycle => exact absurd hx h
    | stop => simp [Waiter.isCycle]
  · rw [List.filter_eq_self]
    intro x hx
    cases x with
    | cycle => exact absurd hx h
    | stop => simp [Waiter.isCycle]

/-- What the invariant says of a state whose phase is IDLE. -/
theorem Inv.idle {s : State} (h : Inv s) (hp : s.rxPhase = .idle) :
    Waiter.cycle ∉ s.waiting ∧ s.haltAfter = false ∧ s.rxAppended = false := by
  obtain ⟨_, _, ⟨_, _, hAppended⟩, hCycle, _, _, hLast⟩ := h
  refine ⟨fun hc => hCycle hc hp, ?_, ?_⟩
  · cases hh : s.haltAfter with
    | false => rfl
    | true => exact absurd hp (hLast hh).2
  · cases ha : s.rxAppended with
    | false => rfl
    | true => exact absurd hp (hAppended ha)

/-- The last-cycle choice matters only between two cycles (R182). -/
theorem agentStep_choice (c c' : Bool) {s : State} (h : s.rxPhase ≠ .idle) :
    agentStep c s = agentStep c' s := by
  unfold agentStep
  cases hp : s.rxPhase with
  | idle => exact absurd hp h
  | ingest => rfl
  | extract => rfl

theorem agentStep_between {s : State} (c : Bool) (h : BetweenCycles s) : agentStep c s = runCycle s := by
  rw [agentStep, h.2.2]
  simp [h.1, h.2.1]

/-- A wire command's frame is consumed: its event, and `Q` without everything through the frame that
stands first (R176, R177). -/
theorem consumeFrame_wire (id : Byte) (payload : List Byte) (s : State) :
    consumeFrame (wireFrame id payload) s
      = { s with events := s.events ++ reportEvents s.cfg id (payload.take 8)
                 q := afterFrame s.q } := by
  rw [consumeFrame_eq _ _ rfl]
  rfl

theorem reportEvents_length_le (p : Params) (id : Byte) (payload : List Byte) :
    (reportEvents p id payload).length ≤ 1 := by
  unfold reportEvents
  split
  · simp
  · split <;> simp

theorem encodeFrame_eq (cmd : Byte) (valid : Bool) (payload : List Byte) (s : State) :
    encodeFrame cmd valid payload s
      = { s with responses := s.responses ++ [if valid then okFrame (wireFrame cmd payload)
                                              else bare .eValidation] } := by
  cases valid <;> rfl

/-- TX_SEND records the bytes, takes one answer or one draw, and responds with it (R181). -/
theorem execTxSend_cases (bytes : List Byte) (s : State) :
    ∃ (ok : Bool) (ws : List Bool) (draws : Nat),
      execTxSend bytes s = .next { s with
        sent := s.sent ++ [bytes], writeAnswers := ws, draws := draws
        responses := s.responses ++ [bare (if ok then .ok else .eTransport)] } := by
  unfold execTxSend transportWrite drawWrite
  cases hw : s.writeAnswers with
  | cons ok ws => exact ⟨ok, ws, s.draws, by cases ok <;> rfl⟩
  | nil =>
    refine ⟨Config.freeWrite s.draws, [], s.draws + 1, ?_⟩
    simp only
    cases Config.freeWrite s.draws <;> simp [respond, raiseStatus]

/-! ### What an instruction can do -/

/-- The operation is answered at once and nothing else changes. -/
def Answered (s t : State) : Prop := ∃ r : Response, t = { s with responses := s.responses ++ [r] }

/-- Every next state an instruction can give, with the guards under which it gives it. -/
theorem exec_cases {i : Instr} {s t : State} (h : exec i s = .next t) :
    (isHostOp i ∧ (i = .rxCycle → s.rxRunning = false ∨ s.rxStopPending = true) ∧ Answered s t) ∨
    (∃ b, i = .fifoPush b ∧ s.rxRunning = false ∧ s.q.length < s.cfg.capacity ∧
      t = { s with q := s.q ++ [b], responses := s.responses ++ [okFlag true] }) ∨
    (∃ n, i = .fifoDrain n ∧ s.rxRunning = false ∧ n.toNat ≤ s.q.length ∧
      t = { s with q := s.q.drop n.toNat, responses := s.responses ++ [bare .ok] }) ∨
    (i = .rxStart ∧ s.rxRunning = false ∧
      t = { s with rxRunning := true, rxStopPending := false, rxPhase := .idle, rxAppended := false,
                   responses := s.responses ++ [okFlag true] }) ∨
    (i = .rxStop ∧ s.rxRunning = true ∧ s.rxStopPending = true ∧
      t = { s with waiting := s.waiting ++ [.stop false] }) ∨
    (i = .rxStop ∧ s.rxRunning = true ∧ s.rxStopPending = false ∧
      t = { s with rxStopPending := true, waiting := s.waiting ++ [.stop true] }) ∨
    (i = .rxCycle ∧ BetweenCycles s ∧ t = runCycle { s with waiting := s.waiting ++ [.cycle] }) ∨
    (i = .rxCycle ∧ s.rxRunning = true ∧ s.rxStopPending = false ∧ s.rxPhase ≠ .idle ∧
      t = { agentStep false s with
            agenda := .request { sel := 0x4200 } :: (agentStep false s).agenda }) ∨
    (∃ (bytes : List Byte) (ok : Bool) (ws : List Bool) (draws : Nat), i = .txSend bytes ∧
      t = { s with sent := s.sent ++ [bytes], writeAnswers := ws, draws := draws,
                   responses := s.responses ++ [bare (if ok then .ok else .eTransport)] }) ∨
    (¬ isHostOp i ∧ ∃ id payload, t = { s with
      events := s.events ++ reportEvents s.cfg id payload, q := afterFrame s.q }) := by
  have enc : ∀ c v p, isHostOp i → i ≠ .rxCycle → t = encodeFrame c v p s →
      isHostOp i ∧ (i = .rxCycle → s.rxRunning = false ∨ s.rxStopPending = true) ∧ Answered s t :=
    fun c v p hh hn ht => ⟨hh, fun he => absurd he hn, _, ht.trans (encodeFrame_eq c v p s)⟩
  have wire : ∀ id p, ¬ isHostOp i → t = consumeFrame (wireFrame id p) s →
      ¬ isHostOp i ∧ ∃ id payload, t = { s with
        events := s.events ++ reportEvents s.cfg id payload, q := afterFrame s.q } :=
    fun id p hn ht => ⟨hn, id, p.take 8, ht.trans (consumeFrame_wire id p s)⟩
  have port : ∀ operation : State → State, isHostOp i → i ≠ .rxCycle →
      (s.rxRunning = false → ∃ r, operation s = { s with responses := s.responses ++ [r] }) →
      t = fifoPort operation s →
      isHostOp i ∧ (i = .rxCycle → s.rxRunning = false ∨ s.rxStopPending = true) ∧ Answered s t := by
    intro operation hh hn ho ht
    refine ⟨hh, fun he => absurd he hn, ?_⟩
    cases hr : s.rxRunning with
    | true => exact ⟨_, by rw [ht, fifoPort_running _ hr]; rfl⟩
    | false =>
      obtain ⟨r, hr'⟩ := ho hr
      exact ⟨r, by rw [ht, fifoPort_stopped _ hr, hr']⟩
  cases i <;> (try
    (rw [exec] at h; injection h with h;
     exact .inl (enc _ _ _ ⟨_, rfl⟩ nofun h.symm))) <;> (try
    (rw [exec] at h; injection h with h;
     exact .inr (.inr (.inr (.inr (.inr (.inr (.inr (.inr (.inr
      (wire _ _ (fun hh => by cases hh; contradiction) h.symm)))))))))))
  case dec F =>
    rw [exec] at h; injection h with h
    refine .inl ⟨⟨_, rfl⟩, nofun, ?_⟩
    subst h
    split
    · exact ⟨_, rfl⟩
    · exact ⟨_, rfl⟩
  case fifoPush b =>
    rw [exec] at h; injection h with h
    by_cases hg : s.rxRunning = false ∧ s.q.length < s.cfg.capacity
    · refine .inr (.inl ⟨b, rfl, hg.1, hg.2, ?_⟩)
      rw [← h, fifoPort_stopped _ hg.1, pushByte_of_lt b hg.2]
      rfl
    · refine .inl (port _ ⟨_, rfl⟩ nofun (fun hr => ?_) h.symm)
      rw [pushByte_of_full b (Nat.not_lt.mp fun hl => hg ⟨hr, hl⟩)]
      exact ⟨_, rfl⟩
  case fifoDrain n =>
    rw [exec] at h; injection h with h
    by_cases hg : s.rxRunning = false ∧ n.toNat ≤ s.q.length
    · refine .inr (.inr (.inl ⟨n, rfl, hg.1, hg.2, ?_⟩))
      rw [← h, fifoPort_stopped _ hg.1, drainBytes_of_le hg.2]
      rfl
    · refine .inl (port _ ⟨_, rfl⟩ nofun (fun hr => ?_) h.symm)
      rw [drainBytes_of_gt (Nat.not_le.mp fun hl => hg ⟨hr, hl⟩)]
      exact ⟨_, rfl⟩
  case fifoSnapshot =>
    rw [exec] at h; injection h with h
    exact .inl (port _ ⟨_, rfl⟩ nofun (fun _ => ⟨_, rfl⟩) h.symm)
  case fifoLen =>
    rw [exec] at h; injection h with h
    exact .inl (port _ ⟨_, rfl⟩ nofun (fun _ => ⟨_, rfl⟩) h.symm)
  case fifoIsEmpty =>
    rw [exec] at h; injection h with h
    exact .inl (port _ ⟨_, rfl⟩ nofun (fun _ => ⟨_, rfl⟩) h.symm)
  case fifoIsFull =>
    rw [exec] at h; injection h with h
    exact .inl (port _ ⟨_, rfl⟩ nofun (fun _ => ⟨_, rfl⟩) h.symm)
  case rxStart =>
    rw [exec] at h; injection h with h
    rcases Bool.eq_false_or_eq_true s.rxRunning with hr | hr
    · exact .inl ⟨⟨_, rfl⟩, nofun, _, by rw [← h, if_pos hr]; rfl⟩
    · exact .inr (.inr (.inr (.inl ⟨rfl, hr, by rw [← h, if_neg (by simp [hr])]; rfl⟩)))
  case rxStop =>
    rw [exec] at h; injection h with h
    rcases Bool.eq_false_or_eq_true s.rxRunning with hr | hr
    · rw [if_pos hr] at h
      rcases Bool.eq_false_or_eq_true s.rxStopPending with hs | hs
      · exact .inr (.inr (.inr (.inr (.inl ⟨rfl, hr, hs, by rw [← h, if_pos hs]⟩))))
      · exact .inr (.inr (.inr (.inr (.inr (.inl
          ⟨rfl, hr, hs, by rw [← h, if_neg (by simp [hs])]⟩)))))
    · exact .inl ⟨⟨_, rfl⟩, nofun, _, by rw [← h, if_neg (by simp [hr])]; rfl⟩
  case rxCycle =>
    rw [exec] at h; injection h with h
    by_cases hg : s.rxRunning = false ∨ s.rxStopPending = true
    · exact .inl ⟨⟨_, rfl⟩, fun _ => hg, _, by rw [← h, if_pos hg]; rfl⟩
    · rw [if_neg hg] at h
      have hr : s.rxRunning = true := by simpa using fun hr => hg (.inl hr)
      have hs : s.rxStopPending = false := by simpa using fun hs => hg (.inr hs)
      by_cases hp : s.rxPhase = .idle
      · exact .inr (.inr (.inr (.inr (.inr (.inr (.inl
          ⟨rfl, ⟨hr, hs, hp⟩, by rw [← h, if_pos hp]⟩))))))
      · exact .inr (.inr (.inr (.inr (.inr (.inr (.inr (.inl
          ⟨rfl, hr, hs, hp, by rw [← h, if_neg hp]; rfl⟩)))))))
  case txSend bytes =>
    obtain ⟨ok, ws, draws, he⟩ := execTxSend_cases bytes s
    rw [exec, he] at h; injection h with h
    exact .inr (.inr (.inr (.inr (.inr (.inr (.inr (.inr (.inl
      ⟨bytes, ok, ws, draws, rfl, h.symm⟩))))))))

/-! ### What a step can do -/

/-- The transport settled some answers, or an illegal selector was answered: nothing of R20's state and no
event changes. -/
def Settled (s t : State) : Prop :=
  ∃ avail reads writes responses,
    t = { s with agenda := s.agenda.tail, availAnswers := avail, readAnswers := reads,
                 writeAnswers := writes, responses := responses }

/-- Every next state a step can give: an agent move, after at most one draw; an instruction; answers
settled; a reset while quiescent. -/
theorem step_cases {s t : State} (h : step s = .next t) :
    ((∀ rest, s.agenda ≠ .reset :: rest) ∧
      ∃ c draws, t = agentStep c { s with agenda := s.agenda.tail, draws := draws }) ∨
    (∃ r rest i, s.agenda = .request r :: rest ∧ decodeRequest r = .ok i ∧
      exec i { s with agenda := rest } = .next t) ∨
    ((∀ rest, s.agenda ≠ .reset :: rest) ∧ Settled s t) ∨
    (∃ rest, s.agenda = .reset :: rest ∧ Quiescent s ∧ t = resetBlock { s with agenda := rest }) := by
  unfold step at h
  split at h
  · rename_i ha
    injection h with h
    obtain ⟨c, draws, hc⟩ := agentFreeStep_cases s
    refine .inl ⟨by simp [ha], c, draws, ?_⟩
    rw [← h, hc, ha, List.tail_nil, ← ha]
  · rename_i r rest ha
    split at h
    · exact .inr (.inl ⟨r, rest, _, ha, ‹_›, h⟩)
    · injection h with h
      exact .inr (.inr (.inl ⟨by simp [ha], _, _, _, _, by rw [← h, ha]; rfl⟩))
  · rename_i c rest ha
    injection h with h
    exact .inl ⟨by simp [ha], c, s.draws, by rw [← h, ha]; rfl⟩
  · rename_i n rest ha
    injection h with h
    exact .inr (.inr (.inl ⟨by simp [ha], _, _, _, _, by rw [← h, ha]; rfl⟩))
  · rename_i rs rest ha
    injection h with h
    exact .inr (.inr (.inl ⟨by simp [ha], _, _, _, _, by rw [← h, ha]; rfl⟩))
  · rename_i ok rest ha
    injection h with h
    exact .inr (.inr (.inl ⟨by simp [ha], _, _, _, _, by rw [← h, ha]; rfl⟩))
  · rename_i rest ha
    unfold applyReset at h
    split at h
    · injection h with h
      exact .inr (.inr (.inr ⟨rest, ha, ‹_›, h.symm⟩))
    · cases h

end Sys2Proof.Machine
end

