-- ==== Sys2Proof/Laws/PerInstr.lean ====
section
/-! SUPPORT. One lemma per instruction: its encoding carries the row that spec/opcode_table.json gives it. The
encoder's words and `Instr.tableWord` were written separately (30_encoding.md R67, R79). -/

namespace Sys2Proof.Laws.TableRow

/-- The instruction's encoding matches its row of the opcode table. -/
def Statement (i : Instr) : Prop := (encode i).tableWord = i.tableWord

theorem encMoveEast : Statement (.encMoveEast) := rfl

theorem encMoveWest : Statement (.encMoveWest) := rfl

theorem encMoveNorth : Statement (.encMoveNorth) := rfl

theorem encMoveSouth : Statement (.encMoveSouth) := rfl

theorem encStopMotion : Statement (.encStopMotion) := rfl

theorem encPark : Statement (.encPark) := rfl

theorem encGetSiteLocation : Statement (.encGetSiteLocation) := rfl

theorem encDisconnect : Statement (.encDisconnect) := rfl

theorem encGoto (a b : Word) : Statement (.encGoto a b) := rfl

theorem encSync (a b : Word) : Statement (.encSync a b) := rfl

theorem encSetSiteLocation (a b : Word) : Statement (.encSetSiteLocation a b) := rfl

theorem encSetDateTime (year : Half) (month day hour minute second : Byte) :
    Statement (.encSetDateTime year month day hour minute second) := rfl

theorem encSiteLocationReport (a b : Word) : Statement (.encSiteLocationReport a b) := rfl

theorem encPositionReport (a b : Word) : Statement (.encPositionReport a b) := rfl

theorem encMwtEast : Statement (.encMwtEast) := rfl

theorem encMwtWest : Statement (.encMwtWest) := rfl

theorem encMwtNorth : Statement (.encMwtNorth) := rfl

theorem encMwtSouth : Statement (.encMwtSouth) := rfl

theorem dec (frameIn : List Byte) : Statement (.dec frameIn) := rfl

theorem fifoPush (byte : Byte) : Statement (.fifoPush byte) := rfl

theorem fifoDrain (n : Half) : Statement (.fifoDrain n) := rfl

theorem fifoSnapshot : Statement (.fifoSnapshot) := rfl

theorem fifoLen : Statement (.fifoLen) := rfl

theorem fifoIsEmpty : Statement (.fifoIsEmpty) := rfl

theorem fifoIsFull : Statement (.fifoIsFull) := rfl

theorem rxStart : Statement (.rxStart) := rfl

theorem rxStop : Statement (.rxStop) := rfl

theorem rxCycle : Statement (.rxCycle) := rfl

theorem txSend (dataIn : List Byte) : Statement (.txSend dataIn) := rfl

theorem wireNull (payload : List Byte) : Statement (.wireNull payload) := rfl

theorem wireMoveEast (payload : List Byte) : Statement (.wireMoveEast payload) := rfl

theorem wireMoveWest (payload : List Byte) : Statement (.wireMoveWest payload) := rfl

theorem wireMoveNorth (payload : List Byte) : Statement (.wireMoveNorth payload) := rfl

theorem wireMoveSouth (payload : List Byte) : Statement (.wireMoveSouth payload) := rfl

theorem wireStopMotion (payload : List Byte) : Statement (.wireStopMotion payload) := rfl

theorem wirePark (payload : List Byte) : Statement (.wirePark payload) := rfl

theorem wireGetSiteLocation (payload : List Byte) : Statement (.wireGetSiteLocation payload) := rfl

theorem wireDisconnect (payload : List Byte) : Statement (.wireDisconnect payload) := rfl

theorem wireGoto (payload : List Byte) : Statement (.wireGoto payload) := rfl

theorem wireSync (payload : List Byte) : Statement (.wireSync payload) := rfl

theorem wireSetSiteLocation (payload : List Byte) : Statement (.wireSetSiteLocation payload) := rfl

theorem wireSetDateTime (payload : List Byte) : Statement (.wireSetDateTime payload) := rfl

theorem wireSiteLocationReport (payload : List Byte) : Statement (.wireSiteLocationReport payload) := rfl

theorem wirePositionReport (payload : List Byte) : Statement (.wirePositionReport payload) := rfl

end Sys2Proof.Laws.TableRow
end

