-- ==== Sys2Proof/Laws/Ranges.lean ====
section
/-! SUPPORT. The model's range checks on patterns say what R101 says over the rationals: a finite pattern's
value is its scaled integer, and comparing the scaled integers compares the values.
The same for the date check and BCD (R12, R113). -/

namespace Sys2Proof.Machine

/-- The integer that `f32Value` carries for a finite pattern: the value times 2 to the power 149. -/
def f32Scaled (u : Word) : Int :=
  if f32Sign u then -(f32Magnitude u : Int) else (f32Magnitude u : Int)

theorem f32Rat_magnitude (u : Word) :
    f32Rat u * 2 ^ 149 = (if f32Sign u then -1 else 1) * (f32Magnitude u : ℚ) := by
  have hSubnormal : (2 : ℚ) ^ (-149 : ℤ) * 2 ^ 149 = 1 := by norm_num
  have hNormal : ∀ k : ℕ, (2 : ℚ) ^ (((k + 1 : ℕ) : ℤ) - 127) * 2 ^ 149 = 2 ^ k * 2 ^ 23 := by
    intro k
    rw [← zpow_natCast, ← zpow_natCast, ← zpow_natCast, ← zpow_add₀ (by norm_num),
      ← zpow_add₀ (by norm_num)]
    congr 1
    push_cast
    ring
  rw [f32Rat, f32Magnitude, mul_assoc]
  congr 1
  by_cases he : f32Exponent u = 0
  · rw [if_pos he, if_pos he, mul_assoc, hSubnormal, mul_one]
  · obtain ⟨k, hk⟩ : ∃ k, f32Exponent u = k + 1 := ⟨f32Exponent u - 1, by omega⟩
    rw [if_neg he, if_neg he, hk, mul_assoc, hNormal]
    push_cast
    field_simp
    norm_num

theorem f32Rat_scaled (u : Word) : f32Rat u * 2 ^ 149 = (f32Scaled u : ℚ) := by
  rw [f32Rat_magnitude, f32Scaled]
  split_ifs <;> push_cast <;> ring

theorem f32Rat_le (u : Word) (c : ℤ) : f32Rat u ≤ (c : ℚ) ↔ f32Scaled u ≤ c * 2 ^ 149 := by
  rw [← mul_le_mul_iff_left₀ (show (0 : ℚ) < 2 ^ 149 by positivity), f32Rat_scaled]
  exact_mod_cast Iff.rfl

theorem f32Rat_lt (u : Word) (c : ℤ) : f32Rat u < (c : ℚ) ↔ f32Scaled u < c * 2 ^ 149 := by
  rw [← mul_lt_mul_iff_left₀ (show (0 : ℚ) < 2 ^ 149 by positivity), f32Rat_scaled]
  exact_mod_cast Iff.rfl

theorem le_f32Rat (u : Word) (c : ℤ) : (c : ℚ) ≤ f32Rat u ↔ c * 2 ^ 149 ≤ f32Scaled u := by
  rw [← mul_le_mul_iff_left₀ (show (0 : ℚ) < 2 ^ 149 by positivity), f32Rat_scaled]
  exact_mod_cast Iff.rfl

/-- A closed check on the pattern is a closed range of the value (R101). -/
theorem inClosed_iff (p : Params) (lo hi : ℤ) (u : Word) :
    nanok p u (inClosed lo hi u) = true ↔ InRange p lo hi true u := by
  unfold nanok InRange inClosed
  by_cases hn : isNaN u
  · simp [hn]
  · by_cases he : f32Exponent u = 0xFF
    · by_cases hs : f32Sign u <;> simp [hn, f32Value, he, hs, f32Const, F32Value.le]
    · simp [hn, f32Value, he, f32Const, F32Value.le, f32Rat_le, le_f32Rat, f32Scaled]

theorem inRa_iff (p : Params) (u : Word) : inRa p u = true ↔ RaInRange p u := by
  unfold inRa nanok RaInRange InRange
  by_cases hn : isNaN u
  · simp [hn]
  · by_cases he : f32Exponent u = 0xFF
    · by_cases hs : f32Sign u <;> simp [hn, f32Value, he, hs, f32Const, F32Value.le, F32Value.lt]
    · have hlo := le_f32Rat u 0
      have hhi := f32Rat_lt u 24
      push_cast at hlo hhi
      simp [hn, f32Value, he, f32Const, F32Value.le, F32Value.lt, hlo, hhi, f32Scaled]

theorem inDec_iff (p : Params) (u : Word) : inDec p u = true ↔ DecInRange p u := by
  simpa [DecInRange, inDec] using inClosed_iff p (-90) 90 u

theorem inLat_iff (p : Params) (u : Word) : inLat p u = true ↔ LatInRange p u := by
  simpa [LatInRange, inLat] using inClosed_iff p (-180) 180 u

theorem inLon_iff (p : Params) (u : Word) : inLon p u = true ↔ LonInRange p u := by
  simpa [LonInRange, inLon] using inClosed_iff p (-90) 90 u

/-- BCD by shift and mask is BCD by arithmetic (R12). -/
theorem bcd_eq {v : Nat} (h : v ≤ 99) : bcd v = packedBcd v := by
  have hAll : ∀ v < 100, bcd v = packedBcd v := by decide
  exact hAll v (by omega)

/-- The model's date check is R113's. -/
theorem validDt_iff (p : Params) (year : Half) (month day hour minute second : Byte) :
    validDt p year month day hour minute second = true
      ↔ DateTimeInRange p year month day hour minute second := by
  unfold validDt DateTimeInRange DayInMonth mdays feb
  simp only [Bool.and_eq_true, Bool.or_eq_true, decide_eq_true_eq, Bool.not_eq_true', List.mem_cons,
    List.not_mem_nil, or_false]
  cases p.dtBCD <;> simp <;> split_ifs <;> omega

end Sys2Proof.Machine
end

