-- ==== Sys2Proof/Tests/Slice0.lean ====
section
/-! SUPPORT. The model's own tests: ill-formed terms, words written out from the spec's encodings, the spec's
test vectors (95_test_vectors.md, named in each comment), and a witness for the hypotheses of every
statement. -/

namespace Sys2Proof.Tests

open Sys2Proof.Machine

set_option maxRecDepth 8000

/-! ### Helpers -/

/-- 95_test_vectors.md's frames. -/
def pos1 : List Byte := [0x55, 0xAA, 0x01, 0x09, 0xFF, 0x00, 0x00, 0xC8, 0x40, 0x00, 0x00, 0x36, 0xC2]
def site1 : List Byte := [0x55, 0xAA, 0x01, 0x09, 0xFE, 0x00, 0x00, 0x4E, 0x42, 0x00, 0x00, 0x00, 0xBE]
def goto1 : List Byte := [0x55, 0xAA, 0x01, 0x09, 0x23, 0x00, 0x00, 0x48, 0x41, 0x00, 0x00, 0xF2, 0xC1]
def junk : List Byte := [0x11, 0x22, 0x33, 0x44, 0x55]

def posEvent : Event := { kind := .pos, a := 0x40C80000, b := 0xC2360000 }
def siteEvent : Event := { kind := .site, a := 0x424E0000, b := 0xBE000000 }

/-- Stopped, with capacity `n` and contents `q`. -/
def stopped (n : Nat) (q : List Byte) : State :=
  { State.reset with cfg := { Params.reference with capacity := n }, q := q }

/-- Running between cycles, with capacity `n` and contents `q`. -/
def running (n : Nat) (q : List Byte) : State := { stopped n q with rxRunning := true }

/-- TRANSPORT.FEED of 30_encoding.md R83: these bytes, then None. -/
def feed (bytes : List Byte) (s : State) : State :=
  { s with availAnswers := [bytes.length], readAnswers := bytes.map some ++ [none] }

/-- The agent is to move next. -/
def ticked (lastCycle : Bool) (s : State) : State := { s with agenda := [.agent lastCycle] }

/-- In INGEST, with these answers to come. -/
def ingesting (q : List Byte) (answers : List (Option Byte)) : State :=
  ticked false { running 256 q with rxPhase := .ingest, readAnswers := answers }

/-- A stop was signalled and two calls wait for the halt. -/
def stopping (lastCycle : Bool) : State :=
  ticked lastCycle { running 256 [0x55, 0xAA, 0x01] with
    rxStopPending := true, waiting := [.stop true, .stop false] }

/-- At EXTRACT after an append. -/
def extracting (q : List Byte) : State :=
  ticked false { running 256 q with rxPhase := .extract, rxAppended := true }

/-- The count says 3 bytes, and the first read answers None. -/
def silent : State := { running 256 site1 with availAnswers := [3], readAnswers := [none] }

/-- What an outcome shows of the state it gives. -/
def seen {α : Type} (view : State → α) : Host.Outcome State Fault Refusal → Option α
  | .next t => some (view t)
  | .fault _ => none
  | .refused _ => none

/-- The last response. -/
def answer (i : Instr) (s : State) : Option Response :=
  seen (fun t => t.responses.getLastD (bare .ok)) (exec i s)

/-- `Q` and the events after one RX_CYCLE over a feed. -/
def cycle (n : Nat) (q bytes : List Byte) : Option (List Byte × List Event) :=
  seen (fun t => (t.q, t.events)) (exec .rxCycle (feed bytes (running n q)))

/-! ### Ill-formed terms -/

theorem test_short_frame_is_ill_formed : (Instr.dec (pos1.take 12)).wellFormed = false := by decide

theorem test_long_frame_is_ill_formed : frameLengthOk (pos1 ++ [0x00]) = false := by decide

theorem test_short_payload_is_ill_formed :
    (Instr.wireGoto [0, 0, 0, 0, 0, 0, 0]).wellFormed = false ∧ payloadLengthOk [] = false := by decide

/-! ### Decoding words written out from 30_encoding.md -/

/-- R79: op 0x10, sub the wire id 0x23; R80: AB. -/
theorem test_decode_goto_request :
    decodeRequest { sel := 0x1023, a := 0x41480000, b := 0xC1F20000 }
      = .ok (.encGoto 0x41480000 0xC1F20000) := by decide

/-- R79: op 0x10, sub the wire id 0x26; R80: DT. -/
theorem test_decode_set_date_time_request :
    decodeRequest { sel := 0x1026, year := 2024, month := 2, day := 29, hour := 12, second := 7 }
      = .ok (.encSetDateTime 2024 2 29 12 0 7) := by decide

/-- R79: op 0x11, sub the direction id 0x04. -/
theorem test_decode_mwt_north_request : decodeRequest { sel := 0x1104 } = .ok .encMwtNorth := by decide

/-- R79: op 0x20; R80: FRAME. -/
theorem test_decode_dec_request :
    decodeRequest { sel := 0x2000, frameIn := frameInOfList pos1 } = .ok (.dec pos1) := by rfl

/-- R79: op 0x31; R80: N. -/
theorem test_decode_drain_request :
    decodeRequest { sel := 0x3100, n := 17 } = .ok (.fifoDrain 17) := by decide

/-- R79: op 0x43; R80: DATA. -/
theorem test_decode_tx_send_request :
    decodeRequest { sel := 0x4300, dataIn := [1, 2, 3] } = .ok (.txSend [1, 2, 3]) := by decide

/-- L2-9: selectors that are not in R79's table. -/
theorem test_illegal_selectors :
    decodeRequest { sel := 0x1000 } = .error (.illegalSelector 0x1000) ∧
    decodeRequest { sel := 0x1003 } = .error (.illegalSelector 0x1003) ∧
    decodeRequest { sel := 0x1123 } = .error (.illegalSelector 0x1123) ∧
    decodeRequest { sel := 0x2001 } = .error (.illegalSelector 0x2001) ∧
    decodeRequest { sel := 0xFFFF } = .error (.illegalSelector 0xFFFF) := by decide

/-- R65, R67: preamble, id 0xFF, payload. -/
theorem test_decode_position_report_frame :
    decodeFrame pos1 = .ok (.wirePositionReport [0x00, 0x00, 0xC8, 0x40, 0x00, 0x00, 0x36, 0xC2]) := by
  decide

/-- R66, R74, R82: no preamble, an unassigned id, a wrong length. -/
theorem test_frames_that_are_no_instruction :
    decodeFrame [0xAA, 0x55, 0x01, 0x09, 0xFF, 0, 0, 0, 0, 0, 0, 0, 0] = .error .noPreamble ∧
    decodeFrame [0x55, 0xAA, 0x01, 0x09, 0x7B, 1, 2, 3, 4, 5, 6, 7, 8] = .error (.unassignedId 0x7B) ∧
    decodeFrame (pos1.take 12) = .error (.notThirteenBytes 12) := by decide

/-- A table word that has another width than its row, or bits above it, is no instruction. -/
theorem test_table_words_refused :
    decodeTableWord 16 0x11023 = none ∧ decodeTableWord 40 0x55AA01097B = none := by decide

/-! ### Encoders (L1-1 to L1-3, L2-1 to L2-3) -/

theorem test_goto_bytes :
    answer (.encGoto 0x41480000 0xC1F20000) State.reset = some (okFrame goto1) := by decide

/-- L1-1 with `P_FLOAT_LE = false`. -/
theorem test_goto_bytes_big_endian :
    answer (.encGoto 0x41480000 0xC1F20000)
        { State.reset with cfg := { Params.reference with floatLE := false } }
      = some (okFrame [0x55, 0xAA, 0x01, 0x09, 0x23, 0x41, 0x48, 0, 0, 0xC1, 0xF2, 0, 0]) := by decide

/-- L1-2, L2-2: ra just above 24, ra at its open end, dec just above 90, NaN, infinity, a negative
subnormal. -/
theorem test_goto_rejects :
    answer (.encGoto 0x41C0147B 0) State.reset = some (bare .eValidation) ∧
    answer (.encGoto 0x41C00000 0) State.reset = some (bare .eValidation) ∧
    answer (.encGoto 0 0x42B40001) State.reset = some (bare .eValidation) ∧
    answer (.encGoto 0x7FC00000 0) State.reset = some (bare .eValidation) ∧
    answer (.encGoto 0 0x7F800000) State.reset = some (bare .eValidation) ∧
    answer (.encGoto 0x80000001 0) State.reset = some (bare .eValidation) := by decide

theorem test_sync_bytes :
    answer (.encSync 0x41BC0000 0x42340000) State.reset
      = some (okFrame [0x55, 0xAA, 0x01, 0x09, 0x24, 0, 0, 0xBC, 0x41, 0, 0, 0x34, 0x42]) := by decide

/-- L2-2: lon first, and lat = 100 passes. -/
theorem test_set_site_location_bytes :
    answer (.encSetSiteLocation 0x42C80000 0x41200000) State.reset
      = some (okFrame [0x55, 0xAA, 0x01, 0x09, 0x25, 0, 0, 0x20, 0x41, 0, 0, 0xC8, 0x42]) := by decide

/-- L2-2: lon = 100 fails, and so does lat just above 180. -/
theorem test_set_site_location_rejects :
    answer (.encSetSiteLocation 0x42340000 0x42C80000) State.reset = some (bare .eValidation) ∧
    answer (.encSetSiteLocation 0x43340001 0) State.reset = some (bare .eValidation) := by decide

/-- L2-3: hour 24 is accepted. -/
theorem test_set_date_time_bytes :
    answer (.encSetDateTime 2024 12 31 24 59 59) State.reset
      = some (okFrame [0x55, 0xAA, 0x01, 0x09, 0x26, 0x20, 0x24, 0x12, 0x31, 0x24, 0x59, 0x59, 0]) := by
  decide

/-- L1-3 with `P_DT_BCD = false`. -/
theorem test_set_date_time_bytes_binary :
    answer (.encSetDateTime 2024 2 29 12 0 0)
        { State.reset with cfg := { Params.reference with dtBCD := false } }
      = some (okFrame [0x55, 0xAA, 0x01, 0x09, 0x26, 0x07, 0xE8, 0x02, 0x1D, 0x0C, 0, 0, 0]) := by decide

/-- L2-3: SITE1 and POS1. -/
theorem test_report_bytes :
    answer (.encSiteLocationReport 0x424E0000 0xBE000000) State.reset = some (okFrame site1) ∧
    answer (.encPositionReport 0x40C80000 0xC2360000) State.reset = some (okFrame pos1) := by decide

/-! ### DEC (L2-4) -/

theorem test_dec_site_report :
    answer (.dec site1) State.reset
      = some { status := .ok
               result := .decOut { kind := .site, id := 0xFE, payload := site1.drop 5,
                                   fa := 0x424E0000, fb := 0xBE000000 } } := by decide

theorem test_dec_without_preamble :
    answer (.dec [0x55, 0xAA, 0x01, 0x08, 0xFF, 0, 0, 0xC8, 0x40, 0, 0, 0x36, 0xC2]) State.reset
      = some (bare .eNoframe) := by decide

/-! ### FIFO (L2-5) -/

theorem test_push_at_full :
    answer (.fifoPush 0x05) (stopped 4 [1, 2, 3, 4]) = some (okFlag false) := by decide

theorem test_drain_takes_oldest :
    seen State.q (exec (.fifoDrain 2) (stopped 4 [1, 2, 3, 4])) = some [3, 4] := by decide

theorem test_drain_underrun_before_and_while_running :
    answer (.fifoDrain 4) (stopped 4 [3, 4, 6]) = some (bare .eUnderrun) ∧
    answer (.fifoDrain 4) (running 4 [3, 4, 6]) = some (bare .eIllegalOp) := by decide

theorem test_fifo_reads :
    answer .fifoSnapshot (stopped 4 [3, 4, 6]) = some { status := .ok, result := .snap [3, 4, 6] } ∧
    answer .fifoLen (stopped 4 [3, 4, 6]) = some { status := .ok, result := .len 3 } ∧
    answer .fifoIsEmpty (stopped 4 [3, 4, 6]) = some (okFlag false) ∧
    answer .fifoIsFull (stopped 4 [1, 2, 3, 4]) = some (okFlag true) := by decide

/-- L2-5 step 9: the ring wraps. -/
theorem test_ring_wraps :
    ({ mem := [1, 2, 3, 4], head := 2, count := 2 } : Ring).push 6
      = ({ mem := [6, 2, 3, 4], head := 2, count := 3 }, true) := by decide

/-! ### The framer (L1-5, L2-6, L2-7) -/

theorem test_resync : cycle 256 [] (junk ++ pos1 ++ pos1.take 6) = some (pos1.take 6, [posEvent]) := by
  decide

/-- F3, F5: one frame per cycle. -/
theorem test_backlog :
    cycle 256 [] (pos1 ++ site1) = some (site1, [posEvent]) ∧
    cycle 256 site1 [0x00] = some ([0x00], [siteEvent]) := by decide

/-- F4, F6, F9. -/
theorem test_no_event_or_near_miss :
    cycle 256 site1 [] = some (site1, []) ∧ cycle 256 [] goto1 = some ([], []) ∧
    cycle 256 [] ([0x55, 0xAA, 0x01, 0x55] ++ pos1) = some ([], [posEvent]) := by decide

/-- F10: a false frame from a truncated one. -/
theorem test_false_frame :
    cycle 256 [] (pos1.take 6 ++ site1)
      = some ([0x4E, 0x42, 0x00, 0x00, 0x00, 0xBE],
              [{ kind := .pos, a := 0x01AA5500, b := 0x0000FE09 }]) := by decide

/-- F13, F15, F17: a cycle that fills the FIFO still extracts; bytes are lost at full; N < 13. -/
theorem test_small_capacities :
    cycle 16 [] ([0, 0, 0] ++ pos1) = some ([], [posEvent]) ∧
    cycle 16 [] (List.replicate 10 0xEE ++ pos1) = some (List.replicate 10 0xEE ++ pos1.take 6, []) ∧
    cycle 8 [] pos1 = some (pos1.take 8, []) := by decide

/-- S3, S4 and S2. -/
theorem test_start_stop_answers :
    answer .rxStop State.reset = some (okFlag false) ∧ answer .rxCycle State.reset = some (bare .ok) ∧
    answer .rxStart (running 256 []) = some (okFlag false) := by decide

/-- S5, S6: HALT alone, and one more cycle before it; both calls are answered. -/
theorem test_halt_and_last_cycle :
    seen (fun t => (t.q, t.events, t.rxRunning, t.responses)) (step (stopping false))
      = some ([0x55, 0xAA, 0x01], [], false, [okFlag true, okFlag false]) ∧
    seen (fun t => (t.q, t.events, t.rxRunning, t.responses))
        (step (feed (0x09 :: pos1.drop 4) (stopping true)))
      = some ([], [posEvent], false, [okFlag true, okFlag false]) := by decide

/-- L2-8. -/
theorem test_tx_send :
    seen (fun t => (t.sent, t.responses))
        (exec (.txSend goto1) { running 256 [] with writeAnswers := [false] })
      = some ([goto1], [bare .eTransport]) := by decide

/-- A wire command placed by its table word runs at the next step. -/
theorem test_placed_wire_command :
    seen (fun t => (t.q, t.rxPhase)) (step (State.reset.withFetchWord 40 0x55AA010923))
      = some ([], .idle) := by decide

/-! ### Witnesses: states and operands that meet the hypotheses of the statements -/

/-- Every Selects clause: a request with that selector. -/
theorem witness_Selects (sel : Half) : ({ sel := sel } : Request).sel = sel := rfl

theorem witness_DecodeEncodeGivesInstructionBack :
    (Instr.dec pos1).wellFormed = true ∧ (Instr.wireNull (pos1.drop 5)).wellFormed = true := by decide

theorem witness_DecodedEncodingIsRecovered :
    decode (.frame site1) = .ok (.wireSiteLocationReport (site1.drop 5)) ∧
    decode (.request { sel := 0x3000, byte := 7, n := 9 }) = .ok (.fifoPush 7) := by decide

theorem witness_UnlistedSelectorIsIllegal :
    (0x4300 : Half) ∈ selectorTable.map Prod.fst ∧ (0x4301 : Half) ∉ selectorTable.map Prod.fst ∧
    (0x0FFF : Half) ∉ selectorTable.map Prod.fst ∧
    { State.reset with agenda := [.request { sel := 0x1000 }] }.agenda
      = .request { sel := 0x1000 } :: [] := by decide

theorem witness_StepRunsSelectedInstruction :
    { State.reset with agenda := [.request { sel := 0x3300 }] }.agenda = .request { sel := 0x3300 } :: [] ∧
    decodeRequest { sel := 0x3300 } = .ok .fifoLen ∧ decodeTableWord 16 0x4300 = some (.txSend []) := by
  decide

theorem witness_StepRunsExtractedWireCommand :
    let s := extracting (junk ++ pos1)
    let w := Instr.wirePositionReport (pos1.drop 5)
    s.agenda = .agent false :: [] ∧ s.rxPhase = .extract ∧ s.rxAppended = true ∧ s.haltAfter = false ∧
      Waiter.cycle ∉ s.waiting ∧ frameStart s.q = some 5 ∧ decodeFrame (frameAt s.q 5) = .ok w ∧
      ∃ t, exec w { s with agenda := [] } = .next t :=
  ⟨rfl, rfl, rfl, rfl, by decide, by decide, by decide, _, rfl⟩

/-- Both ends of ra and dec, and a value out of range. -/
theorem witness_GotoAndSyncEncodeOrReject :
    (RaInRange State.reset.cfg 0x41BFFFFF ∧ DecInRange State.reset.cfg 0x42B40000) ∧
    (RaInRange State.reset.cfg 0x80000000 ∧ DecInRange State.reset.cfg 0xC2B40000) ∧
    ¬ (RaInRange State.reset.cfg 0x41C00000 ∧ DecInRange State.reset.cfg 0) ∧
    ¬ (RaInRange State.reset.cfg 0 ∧ DecInRange State.reset.cfg 0x42B40001) := by
  simp only [← inRa_iff, ← inDec_iff]
  decide

theorem witness_SetSiteLocationEncodesLongitudeFirst :
    (LatInRange State.reset.cfg 0x43340000 ∧ LonInRange State.reset.cfg 0xC2B40000) ∧
    ¬ (LatInRange State.reset.cfg 0x43340001 ∧ LonInRange State.reset.cfg 0) ∧
    ¬ (LatInRange State.reset.cfg 0 ∧ LonInRange State.reset.cfg 0x42C80000) := by
  simp only [← inLat_iff, ← inLon_iff]
  decide

theorem witness_ReportEncodersEncodeOrReject :
    (LatInRange State.reset.cfg 0xC3340000 ∧ LonInRange State.reset.cfg 0x42B40000) ∧
    ¬ (LatInRange State.reset.cfg 0xC3340001 ∧ LonInRange State.reset.cfg 0) ∧
    (RaInRange State.reset.cfg 0x41BFFFFF ∧ DecInRange State.reset.cfg 0x42B40000) ∧
    ¬ (RaInRange State.reset.cfg 0x41F00000 ∧ DecInRange State.reset.cfg 0) := by
  simp only [← inLat_iff, ← inLon_iff, ← inRa_iff, ← inDec_iff]
  decide

/-- L2-3's boundary rows. -/
theorem witness_SetDateTimeEncodesOrRejects :
    DateTimeInRange State.reset.cfg 9999 12 31 24 59 59 ∧
    DateTimeInRange State.reset.cfg 2024 2 29 12 0 0 ∧
    ¬ DateTimeInRange State.reset.cfg 2023 2 29 12 0 0 ∧
    ¬ DateTimeInRange State.reset.cfg 10000 1 1 0 0 0 ∧
    ¬ DateTimeInRange State.reset.cfg 2024 4 31 0 0 0 ∧
    ¬ DateTimeInRange State.reset.cfg 2024 1 0 0 0 0 := by
  simp only [← validDt_iff]
  decide

/-- 1900 is a leap year, 2023 is none. -/
theorem witness_EveryFourthYearIsLeap :
    (State.reset.cfg.dtBCD = true → (1900 : Half).toNat ≤ 9999) ∧
    (State.reset.cfg.dtBCD = true → (2023 : Half).toNat ≤ 9999) ∧
    (24 : Byte).toNat ≤ 24 ∧ (59 : Byte).toNat ≤ 59 ∧ 1 ≤ (29 : Byte).toNat := by decide

theorem witness_RangeChecksCompareBits :
    isNaN 0x41BFFFFF = false ∧ isNaN 0x41C00000 = false ∧ isNaN 0x80000000 = false ∧
    isNaN 0xFF800000 = false := by decide

theorem witness_FloatBytesAndTheirInverse :
    f32bytes Params.reference 0x41480000 = [0x00, 0x00, 0x48, 0x41] := by decide

theorem witness_CodecDependsOnOperandsOnly :
    isEncoder (.encGoto 0 0) = true ∧ (stopped 4 [1]).cfg.floatLE = Params.reference.floatLE ∧
    (stopped 4 [1]).cfg.nanAccept = Params.reference.nanAccept ∧
    (stopped 4 [1]).cfg.dtBCD = Params.reference.dtBCD := by decide

theorem witness_DecClassifiesFrames :
    pos1.length = 13 ∧ pos1.take 4 = [0x55, 0xAA, 0x01, 0x09] ∧
    (0x00 :: pos1.drop 1).length = 13 ∧
    (0x00 :: pos1.drop 1).take 4 ≠ [0x55, 0xAA, 0x01, 0x09] := by decide

theorem witness_DecodeRecoversEncodedReports_reports :
    Answers (.encPositionReport 0x40C80000 0xC2360000) State.reset (okFrame pos1) ∧
    Answers (.encSiteLocationReport 0x424E0000 0xBE000000) State.reset (okFrame site1) := ⟨rfl, rfl⟩

theorem witness_DecodeRecoversEncodedReports_others :
    isEncoder (.encGoto 0x41480000 0xC1F20000) = true ∧
    encode (.encGoto 0x41480000 0xC1F20000)
      = .request { sel := 0x1023, a := 0x41480000, b := 0xC1F20000 } ∧
    (0x1023 : Half) ≠ 0x10FE ∧ (0x1023 : Half) ≠ 0x10FF ∧
    Answers (.encGoto 0x41480000 0xC1F20000) State.reset (okFrame goto1) :=
  ⟨rfl, rfl, by decide, by decide, rfl⟩

theorem witness_DecodeRecoversEncodedReports_again :
    (pos1.length = 13 ∧ pos1.take 4 = [0x55, 0xAA, 0x01, 0x09] ∧ pos1.getD 4 0 = 0xFF ∧
      RaInRange State.reset.cfg (fieldA State.reset.cfg (pos1.drop 5)) ∧
      DecInRange State.reset.cfg (fieldB State.reset.cfg (pos1.drop 5))) ∧
    (site1.length = 13 ∧ site1.take 4 = [0x55, 0xAA, 0x01, 0x09] ∧ site1.getD 4 0 = 0xFE ∧
      LatInRange State.reset.cfg (fieldA State.reset.cfg (site1.drop 5)) ∧
      LonInRange State.reset.cfg (fieldB State.reset.cfg (site1.drop 5))) := by
  simp only [← inLat_iff, ← inLon_iff, ← inRa_iff, ← inDec_iff]
  decide

theorem witness_PushAppendsOrIsRefused :
    (stopped 4 [1, 2, 3]).rxRunning = false ∧
    (stopped 4 [1, 2, 3]).q.length < (stopped 4 [1, 2, 3]).cfg.capacity ∧
    ¬ (stopped 4 [1, 2, 3, 4]).q.length < (stopped 4 [1, 2, 3, 4]).cfg.capacity := by decide

theorem witness_DrainDropsOldestBytes :
    (stopped 4 [1, 2, 3]).rxRunning = false ∧ (3 : Half).toNat ≤ (stopped 4 [1, 2, 3]).q.length ∧
    (0 : Half).toNat ≤ (stopped 4 []).q.length ∧ (stopped 4 [1, 2, 3]).q.length < (4 : Half).toNat := by
  decide

theorem witness_FifoReadsReportContents :
    (stopped 4 [1, 2, 3, 4]).rxRunning = false ∧ (stopped 4 [1, 2, 3, 4]).cfg.Valid ∧
    Fifo.wf (stopped 4 [1, 2, 3, 4]).cfg (stopped 4 [1, 2, 3, 4]).q ∧ State.reset.cfg.Valid ∧
    Fifo.wf State.reset.cfg State.reset.q := by decide

theorem witness_FifoPortIsClosedWhileRunning : (running 4 [1]).rxRunning = true := rfl

theorem witness_PushesFillInOrderUpToCapacity :
    (stopped 4 [1, 2]).rxRunning = false ∧ Fifo.wf (stopped 4 [1, 2]).cfg (stopped 4 [1, 2]).q := by
  decide

theorem witness_RingImplementsFifo :
    ({ mem := [1, 2, 3, 4], head := 3, count := 4 } : Ring).Valid ∧
    ({ mem := [1], head := 0, count := 0 } : Ring).Valid ∧
    ({ mem := [1, 2, 3, 4], head := 3, count := 4 } : Ring).drain 4
      = some { mem := [1, 2, 3, 4], head := 3, count := 0 } := by decide

theorem witness_RxStartIsIdempotent :
    (running 4 [1]).rxRunning = true ∧ (stopped 4 [1]).rxRunning = false := ⟨rfl, rfl⟩

theorem witness_RxStopWaitsForTheHalt :
    State.reset.rxRunning = false ∧
    ((running 4 []).rxRunning = true ∧ (running 4 []).rxStopPending = false) ∧
    ((stopping false).rxRunning = true ∧ (stopping false).rxStopPending = true) := by decide

theorem witness_HaltAnswersEveryStop :
    Inv (stopping false) ∧ (stopping false).rxPhase = .idle ∧ (stopping false).rxStopPending = true ∧
    (stopping false).agenda = .agent false :: [] := by decide

theorem witness_LastCycleIsFollowedByHalt :
    let s := feed [0x09, 0xFF] (stopping true)
    Inv s ∧ s.rxPhase = .idle ∧ s.rxStopPending = true ∧ s.agenda = .agent true :: [] ∧
    s.availAnswers = (1 + 1) :: [] ∧
    s.readAnswers = ([0x09, 0xFF] : List Byte).map some ++ none :: [] := by decide

theorem witness_LastCycleIsFollowedByHalt_zero :
    let s := feed [] (stopping true)
    Inv s ∧ s.rxPhase = .idle ∧ s.rxStopPending = true ∧ s.agenda = .agent true :: [] ∧
    s.availAnswers = 0 :: [] := by decide

theorem witness_TxSendReportsTheWrite :
    { State.reset with writeAnswers := [true] }.writeAnswers = true :: [] ∧
    { State.reset with writeAnswers := [false] }.writeAnswers = false :: [] := ⟨rfl, rfl⟩

theorem witness_RxCycleIsIdleWhileStopped :
    State.reset.rxRunning = false ∧ (stopping false).rxStopPending = true := ⟨rfl, rfl⟩

theorem witness_RxCycleIngestsThenExtractsOnce :
    (Inv (feed [] (running 256 site1)) ∧ BetweenCycles (feed [] (running 256 site1)) ∧
      (feed [] (running 256 site1)).availAnswers = 0 :: []) ∧
    (Inv (feed pos1 (running 16 [1, 2])) ∧ BetweenCycles (feed pos1 (running 16 [1, 2])) ∧
      (feed pos1 (running 16 [1, 2])).availAnswers = (12 + 1) :: [] ∧
      (feed pos1 (running 16 [1, 2])).readAnswers = pos1.map some ++ none :: []) := by decide

theorem witness_IngestDoesNotEndWithoutNone_start :
    let s := { running 4 [1] with availAnswers := [1], readAnswers := [some 2, some 3] }
    Inv s ∧ s.readAnswers = ([2, 3] : List Byte).map some ∧ BetweenCycles s ∧
      s.availAnswers = (0 + 1) :: [] := by decide

theorem witness_IngestDoesNotEndWithoutNone_later :
    Inv (ingesting [1] [some 2]) ∧ (ingesting [1] [some 2]).readAnswers = ([2] : List Byte).map some ∧
    (ingesting [1] [some 2]).rxPhase = .ingest ∧ ([2] : List Byte) ≠ [] ∧
    (ingesting [1] [some 2]).agenda = .agent false :: [] := by decide

/-- A cycle that RX_CYCLE waits for, and R182's last one. -/
theorem witness_SuspendedCycleFinishes :
    (let s := { ingesting [1] [some 2, none] with waiting := [.cycle] }
     Inv s ∧ s.rxPhase = .ingest ∧ s.agenda = .agent false :: [] ∧
      s.readAnswers = ([2] : List Byte).map some ++ none :: []) ∧
    (let s := { ingesting [1] [none] with
                rxStopPending := true, haltAfter := true, waiting := [.stop true] }
     Inv s ∧ s.rxPhase = .ingest ∧ s.agenda = .agent false :: [] ∧
      s.readAnswers = ([] : List Byte).map some ++ none :: []) := by decide

theorem witness_PollTickAndRxCycleAreTheSameStep_ends :
    let s := feed [1] (running 256 [])
    Inv s ∧ BetweenCycles s ∧
      ∃ t, step { s with agenda := .agent false :: s.agenda } = .next t ∧ t.rxPhase = .idle :=
  ⟨by decide, by decide, _, rfl, rfl⟩

theorem witness_PollTickAndRxCycleAreTheSameStep_waits :
    let s := { running 256 [] with availAnswers := [1], readAnswers := [some 1] }
    Inv s ∧ BetweenCycles s ∧
      ∃ t, step { s with agenda := .agent false :: s.agenda } = .next t ∧ t.rxPhase ≠ .idle :=
  ⟨by decide, by decide, _, rfl, by decide⟩

theorem witness_RxCycleDuringCycleStaysAtThePort :
    let s := ingesting [1] [some 2]
    s.rxRunning = true ∧ s.rxStopPending = false ∧ s.rxPhase ≠ .idle ∧
      ∃ t, step { s with agenda := .agent false :: s.agenda } = .next t :=
  ⟨rfl, rfl, by decide, _, rfl⟩

theorem witness_FreeDrawsStandForAnswers :
    (BetweenCycles (running 256 []) ∧ (running 256 []).availAnswers = []) ∧
    ((ingesting [1] []).agenda = .agent false :: [] ∧ (ingesting [1] []).rxPhase = .ingest ∧
      (ingesting [1] []).readAnswers = []) ∧ State.reset.writeAnswers = [] := by decide

/-- R182's choice with nothing on the agenda, and a move without a choice. -/
theorem witness_FreeDrawsStandForAnswers_agenda :
    (let s := { stopping false with agenda := [] }
     s.agenda = [] ∧ s.rxPhase = .idle ∧ s.rxRunning = true ∧ s.rxStopPending = true) ∧
    ((running 256 []).agenda = [] ∧ ¬ ((running 256 []).rxPhase = .idle ∧
      (running 256 []).rxRunning = true ∧ (running 256 []).rxStopPending = true)) := by decide

theorem witness_PollTicksDoNothingWhileStopped :
    Inv (ticked true State.reset) ∧ (ticked true State.reset).rxRunning = false ∧
    (ticked true State.reset).agenda = .agent true :: [] ∧ Inv State.reset ∧
    State.reset.rxRunning = false ∧ State.reset.agenda = [] := by decide

theorem witness_WireReportsRaiseTheirEvent : (pos1.drop 5).length = 8 := by decide

theorem witness_ExtractTakesTheFirstWholeFrame :
    (Inv (extracting (junk ++ pos1)) ∧ (extracting (junk ++ pos1)).agenda = .agent false :: [] ∧
      (extracting (junk ++ pos1)).rxPhase = .extract ∧ (extracting (junk ++ pos1)).rxAppended = true) ∧
    (findPreamble (junk ++ pos1) = some 5 ∧ 5 + 13 ≤ (junk ++ pos1).length) ∧
    (findPreamble (pos1.take 12) = some 0 ∧ (pos1.take 12).length < 0 + 13) ∧
    findPreamble junk = none := by decide

theorem witness_NoExtractionWithoutAppend :
    (Inv (feed [] (running 256 site1)) ∧ BetweenCycles (feed [] (running 256 site1)) ∧
      (feed [] (running 256 site1)).availAnswers = 0 :: []) ∧
    (Inv silent ∧ BetweenCycles silent ∧ silent.availAnswers = 3 :: [] ∧
      silent.readAnswers = none :: []) ∧
    (Inv (feed [1] (running 13 pos1)) ∧ BetweenCycles (feed [1] (running 13 pos1)) ∧
      (feed [1] (running 13 pos1)).q.length = (feed [1] (running 13 pos1)).cfg.capacity) :=
  ⟨by decide, by decide, by decide⟩

theorem witness_NoExtractionWithoutAppend_next (s : State) : ∃ t, exec .rxCycle s = .next t := ⟨_, rfl⟩

/-- F14: full, with a first preamble that has 10 bytes from it. -/
theorem witness_WedgeIsPermanent :
    let s := ticked false (feed [1] (running 16 (List.replicate 6 0 ++ pos1.take 10)))
    Wedged s ∧ (∃ t, step s = .next t) ∧ s.agenda = .agent false :: [] :=
  ⟨by decide, ⟨_, rfl⟩, rfl⟩

theorem witness_NoEventWithCapacityBelowAFrame :
    let s := ticked false (feed pos1 (running 12 []))
    Inv s ∧ s.cfg.capacity < 13 ∧ (∃ t, step s = .next t) ∧ s.agenda = .agent false :: [] :=
  ⟨by decide, by decide, ⟨_, rfl⟩, rfl⟩

theorem witness_TruncatedFrameSwallowsTheNext :
    (pos1.drop 5).length = 8 ∧ (site1.drop 5).length = 8 ∧ 5 ≤ 5 ∧ 12 < 13 := by decide

theorem witness_ResetOnlyWhileQuiescent :
    (let s := { running 4 [1] with agenda := [.reset] }
     s.agenda = .reset :: [] ∧ s.rxPhase = .idle ∧ s.waiting = []) ∧
    (let s := { ingesting [1] [] with agenda := [.reset] }
     s.agenda = .reset :: [] ∧ ¬ (s.rxPhase = .idle ∧ s.waiting = [])) ∧
    (let s := { stopping false with agenda := [.reset] }
     s.agenda = .reset :: [] ∧ ¬ (s.rxPhase = .idle ∧ s.waiting = [])) := by decide

/-- Also for ParametersNeverChange and AtMostOneEventPerStep. -/
theorem witness_EveryStepKeepsTheInvariant :
    Inv (extracting pos1) ∧ (∃ t, step (extracting pos1) = .next t) ∧
    (extracting pos1).agenda = .agent false :: [] := ⟨by decide, ⟨_, rfl⟩, rfl⟩

theorem witness_HostOperationsEmitNoEvents :
    isHostOp (.fifoPush 1) ∧ Instr.fifoPush 1 ≠ .rxCycle ∧
    (∃ t, exec (.fifoPush 1) State.reset = .next t) ∧
    isHostOp .fifoLen ∧ (∀ b, Instr.fifoLen ≠ .fifoPush b) ∧ (∀ n, Instr.fifoLen ≠ .fifoDrain n) :=
  ⟨⟨_, rfl⟩, nofun, ⟨_, rfl⟩, ⟨_, rfl⟩, nofun, nofun⟩

theorem witness_OnlyStartAndStopWriteControlBits :
    Inv (ingesting [1] [none]) ∧ Instr.rxCycle ≠ .rxStart ∧ Instr.rxCycle ≠ .rxStop ∧
    ∃ t, exec .rxCycle (ingesting [1] [none]) = .next t := ⟨by decide, nofun, nofun, _, rfl⟩

theorem witness_OneResponsePerRequest :
    isHostOp .rxCycle ∧ (∃ t, exec .rxCycle (running 256 []) = .next t) ∧
    (running 256 []).rxPhase = .idle := ⟨⟨_, rfl⟩, ⟨_, rfl⟩, rfl⟩

theorem witness_OutputHistoriesAreNeverRead :
    (∃ t, exec (.txSend pos1) State.reset = .next t) ∧
    ((stopping false).agenda = .agent false :: [] ∧ ∃ t, step (stopping false) = .next t) ∧
    { State.reset with agenda := [.reset] }.agenda = .reset :: [] := ⟨⟨_, rfl⟩, ⟨rfl, _, rfl⟩, rfl⟩

end Sys2Proof.Tests
end

section
/-! The bytes of a float field and their inverse (00_scope.md R11, 20_memory.md R47), first for the order
of `le32`; `be32` is that list reversed, so the other order needs no argument of its own. -/

namespace Sys2Proof.Machine

theorem f32bytes_eq_le32_or_reverse (p : Params) (u : Word) :
    f32bytes p u = if p.floatLE then le32 u else (le32 u).reverse := rfl

theorem le32_eq_ofNat (u : Word) :
    le32 u = [BitVec.ofNat 8 u.toNat, BitVec.ofNat 8 (u.toNat / 2 ^ 8),
      BitVec.ofNat 8 (u.toNat / 2 ^ 16), BitVec.ofNat 8 (u.toNat / 2 ^ 24)] := by
  simp only [le32, BitVec.extractLsb', Nat.shiftRight_eq_div_pow, Nat.pow_zero, Nat.div_one]

/-- The four bytes are digits in base 256, so their sum has no carry and stays below 2 to the power 32. -/
theorem toNat_wordOfBytes (b0 b1 b2 b3 : Byte) :
    (wordOfBytes b0 b1 b2 b3).toNat =
      b0.toNat + 2 ^ 8 * b1.toNat + 2 ^ 16 * b2.toNat + 2 ^ 24 * b3.toNat := by
  rw [wordOfBytes, BitVec.toNat_ofNat]
  omega

theorem le32_wordOfBytes (b0 b1 b2 b3 : Byte) : le32 (wordOfBytes b0 b1 b2 b3) = [b0, b1, b2, b3] := by
  rw [le32_eq_ofNat, toNat_wordOfBytes]
  congr <;> apply BitVec.eq_of_toNat_eq <;> rw [BitVec.toNat_ofNat] <;> omega

theorem wordOfBytes_of_le32_eq {u : Word} {b0 b1 b2 b3 : Byte} (h : le32 u = [b0, b1, b2, b3]) :
    wordOfBytes b0 b1 b2 b3 = u := by
  rw [le32_eq_ofNat] at h
  simp only [List.cons.injEq, and_true] at h
  obtain ⟨rfl, rfl, rfl, rfl⟩ := h
  apply BitVec.eq_of_toNat_eq
  simp only [toNat_wordOfBytes, BitVec.toNat_ofNat]
  omega

theorem f32bytes_f32from (p : Params) (b0 b1 b2 b3 : Byte) :
    f32bytes p (f32from p b0 b1 b2 b3) = [b0, b1, b2, b3] := by
  rw [f32bytes_eq_le32_or_reverse, f32from]
  split <;> rw [le32_wordOfBytes]
  rfl

theorem f32from_of_f32bytes_eq {p : Params} {u : Word} {b0 b1 b2 b3 : Byte}
    (h : f32bytes p u = [b0, b1, b2, b3]) : f32from p b0 b1 b2 b3 = u := by
  rw [f32bytes_eq_le32_or_reverse] at h
  by_cases hle : p.floatLE = true
  · rw [if_pos hle] at h
    rw [f32from, if_pos hle]
    exact wordOfBytes_of_le32_eq h
  · rw [if_neg hle] at h
    rw [f32from, if_neg hle]
    exact wordOfBytes_of_le32_eq (List.reverse_eq_iff.mp h)

/-- Settles O15: the bytes are the base 256 digits of the pattern, and each byte order of `f32from` is
the inverse of the same order of `f32bytes`. -/
theorem floatBytesAndTheirInverse : Obligations.FloatBytesAndTheirInverse := by
  intro p u b0 b1 b2 b3
  refine ⟨?_, f32bytes_f32from p b0 b1 b2 b3, f32from_of_f32bytes_eq⟩
  rw [f32bytes_eq_le32_or_reverse, le32_eq_ofNat]

end Sys2Proof.Machine
end

section
/-! The ring of R24: its cells, and its push and drain seen through the contents. -/

namespace Sys2Proof.Machine

theorem Ring.contents_length (r : Ring) : r.contents.length = r.count := by simp [Ring.contents]

theorem Ring.contents_getElem (r : Ring) {k : Nat} (h : k < r.contents.length) :
    r.contents[k] = r.mem.getD ((r.head + k) % r.mem.length) 0 := by simp [Ring.contents]

/-- Less than a turn apart, two offsets of the ring are different cells. -/
theorem ring_cells_ne {N k m : Nat} (head : Nat) (hk : k < m) (hm : m < N) :
    (head + m) % N ≠ (head + k) % N := by
  intro h
  have : m % N = k % N := Nat.ModEq.add_left_cancel' head h
  rw [Nat.mod_eq_of_lt hm, Nat.mod_eq_of_lt (hk.trans hm)] at this
  omega

theorem Ring.Valid.push {r : Ring} (h : r.Valid) (b : Byte) : (r.push b).1.Valid := by
  obtain ⟨hHead, hCount⟩ := h
  unfold Ring.push
  split
  · rename_i hRoom
    exact ⟨by simpa using hHead, by simpa using hRoom⟩
  · exact ⟨hHead, hCount⟩

theorem Ring.push_mem_length (r : Ring) (b : Byte) : (r.push b).1.mem.length = r.mem.length := by
  unfold Ring.push
  split <;> simp

/-- R24's push is the FIFO's: the cell written is the one after the newest byte, so no byte held is
overwritten. -/
theorem Ring.push_contents (r : Ring) (b : Byte) :
    ((r.push b).1.contents, (r.push b).2) = pushByte r.mem.length r.contents b := by
  by_cases hc : r.count < r.mem.length
  · have hcell : (r.head + r.count) % r.mem.length < r.mem.length := Nat.mod_lt _ (by omega)
    rw [pushByte_of_lt b (by rwa [Ring.contents_length])]
    simp only [Ring.push, hc, if_true, Ring.contents, List.length_set, List.range_succ, List.map_append,
      List.map_singleton, Prod.mk.injEq, and_true]
    congr 1
    · refine List.map_congr_left fun k hk => ?_
      rw [List.getD_eq_getElem?_getD, List.getD_eq_getElem?_getD,
        List.getElem?_set_ne (ring_cells_ne r.head (List.mem_range.mp hk) hc)]
    · simp [List.getD_eq_getElem?_getD, hcell]
  · rw [pushByte_of_full b (by rw [Ring.contents_length]; omega)]
    simp [Ring.push, hc]

/-- R24's drain is the FIFO's: moving `head` on by `n` skips the `n` oldest bytes. -/
theorem Ring.drain_contents (r : Ring) (n : Nat) :
    (r.drain n).map Ring.contents = drainBytes r.contents n := by
  by_cases hn : r.count < n
  · rw [drainBytes_of_gt (by rwa [Ring.contents_length])]
    simp [Ring.drain, hn]
  · rw [drainBytes_of_le (by rw [Ring.contents_length]; omega)]
    simp only [Ring.drain, gt_iff_lt, hn, if_false, Option.map_some, Option.some.injEq]
    refine List.ext_getElem (by simp [Ring.contents_length]) fun k _ _ => ?_
    rw [List.getElem_drop, Ring.contents_getElem, Ring.contents_getElem, Nat.mod_add_mod, Nat.add_assoc]

theorem Ring.Valid.drain {r r' : Ring} {n : Nat} (h : r.Valid) (hd : r.drain n = some r') :
    r'.Valid ∧ r'.mem = r.mem := by
  obtain ⟨hHead, hCount⟩ := h
  unfold Ring.drain at hd
  split at hd
  · cases hd
  · cases hd
    exact ⟨⟨Nat.mod_lt _ (by omega), (Nat.sub_le _ _).trans hCount⟩, rfl⟩

/-- Settles O24: the cells of R24's abstraction are distinct, so a push writes behind the contents and a
drain takes them from the front. -/
theorem ringImplementsFifo : Obligations.RingImplementsFifo := fun r b n h =>
  ⟨r.contents_length, h.push b, r.push_mem_length b, r.push_contents b, r.drain_contents n,
    fun _ => h.drain⟩

end Sys2Proof.Machine
end

section
/-! The invariant: what keeps it, part by part of the receive cycle, then every agent move, every
instruction and every step. -/

namespace Sys2Proof.Machine

/-- INGEST in the midst of a cycle keeps the invariant (R23, R173). -/
theorem ingested_inv {s t : State} (h : Inv s) (hp : s.rxPhase ≠ .idle) (ht : IngestedFrom s t) :
    Inv t := by
  obtain ⟨hCfg, hQ, ⟨hStop, hPhase, _⟩, hBook⟩ := h
  obtain ⟨rs, _, _, _, rfl⟩ := ht
  exact ⟨hCfg, ingestLoop_length_le _ rs _ _ hQ, ⟨hStop, hPhase, fun _ => hp⟩, hBook⟩

/-- The end of a cycle keeps the invariant: no RX_CYCLE waits any more, and at a last cycle no RX_STOP
either (R172, R182). -/
theorem finishCycle_inv {s : State} (h : Inv s) : Inv (finishCycle s) := by
  obtain ⟨hCfg, hQ, ⟨hStop, _, _⟩, _, hFalse, hTrue, _⟩ := h
  have hAfter : (if s.rxAppended then afterFrame s.q else s.q).length ≤ s.cfg.capacity := by
    split
    · exact (afterFrame_length_le _).trans hQ
    · exact hQ
  rw [finishCycle_eq]
  cases hh : s.haltAfter with
  | true => exact ⟨hCfg, hAfter, by simp [LegalValues], by simp [Bookkeeping]⟩
  | false =>
    exact ⟨hCfg, hAfter, by simpa [LegalValues] using hStop,
      by simpa [Bookkeeping, Waiter.isCycle, List.count_filter] using ⟨hFalse, hTrue⟩⟩

/-- HALT between cycles keeps the invariant: every RX_STOP is answered (R182). -/
theorem halt_inv {s : State} (h : Inv s) (hp : s.rxPhase = .idle) : Inv (halt s) := by
  obtain ⟨hCycle, _, hAppended⟩ := h.idle hp
  obtain ⟨hCfg, hQ, _⟩ := h
  exact ⟨hCfg, hQ, by simp [LegalValues, hp, hAppended],
    by simp [Bookkeeping, (filter_of_no_cycle hCycle).1]⟩

/-- A cycle that starts keeps the invariant, as the last one only if a stop is pending (R172, R182). -/
theorem startCycle_inv {s : State} (h : Inv s) (hr : s.rxRunning = true) (last : Bool)
    (hl : last = true → s.rxStopPending = true) :
    Inv { s with rxPhase := .ingest, rxAppended := false, haltAfter := last } := by
  obtain ⟨hCfg, hQ, ⟨hStop, _, _⟩, _, hFalse, hTrue, _⟩ := h
  exact ⟨hCfg, hQ, ⟨hStop, fun _ => hr, nofun⟩, fun _ => nofun, hFalse, hTrue, fun hh => ⟨hl hh, nofun⟩⟩

/-- A call of RX_CYCLE may wait for the cycle in progress (R172). -/
theorem waitForCycle_inv {s : State} (h : Inv s) (hp : s.rxPhase ≠ .idle) :
    Inv { s with waiting := s.waiting ++ [.cycle] } := by
  obtain ⟨hCfg, hQ, hLegal, _, hFalse, hTrue, hLast⟩ := h
  exact ⟨hCfg, hQ, hLegal, fun _ => hp, by simpa using hFalse, by simpa using hTrue, hLast⟩

/-- A cycle that began within the invariant ends or waits within it. -/
theorem cycleMove_inv {s t u : State} (h : Inv s) (hp : s.rxPhase ≠ .idle) (ht : IngestedFrom s t)
    (hu : u = finishCycle t ∨ u = t) : Inv u := by
  have hInv := ingested_inv h hp ht
  obtain rfl | rfl := hu
  · exact finishCycle_inv hInv
  · exact hInv

theorem agentStep_inv {s : State} (h : Inv s) (c : Bool) : Inv (agentStep c s) := by
  obtain ⟨_, _, ht⟩ | ⟨hp, _, _, ht⟩ | ⟨_, ht⟩ | ⟨s0, t, h0, hIngested, ht⟩ := agentStep_cases c s
  · rwa [ht]
  · rw [ht]
    exact halt_inv h hp
  · rw [ht]
    exact finishCycle_inv h
  · have hs0 : Inv s0 ∧ s0.rxPhase ≠ .idle := by
      obtain ⟨hp, rfl⟩ | ⟨hp, hr, ⟨_, rfl⟩ | ⟨hs, rfl⟩⟩ := h0
      · exact ⟨h, by simp [hp]⟩
      · obtain ⟨_, hHalt, _⟩ := h.idle hp
        exact ⟨startCycle_inv h hr s.haltAfter (by simp [hHalt]), nofun⟩
      · exact ⟨startCycle_inv h hr true fun _ => hs, nofun⟩
    exact cycleMove_inv hs0.1 hs0.2 hIngested ht

theorem rxCycle_inv {s : State} (h : Inv s) (hb : BetweenCycles s) :
    Inv (runCycle { s with waiting := s.waiting ++ [.cycle] }) := by
  obtain ⟨hr, _, hp⟩ := hb
  obtain ⟨_, hHalt, _⟩ := h.idle hp
  obtain ⟨t, hIngested, ht⟩ := runCycle_cases { s with waiting := s.waiting ++ [.cycle] }
  have hStart := startCycle_inv h hr s.haltAfter (by simp [hHalt])
  exact cycleMove_inv (waitForCycle_inv hStart nofun) nofun hIngested ht

/-- A stopped agent rests in IDLE with no stop pending (R27). -/
theorem Inv.stopped {s : State} (h : Inv s) (hr : s.rxRunning = false) :
    s.rxPhase = .idle ∧ s.rxStopPending = false := by
  obtain ⟨_, _, ⟨hStop, hPhase, _⟩, _⟩ := h
  simp only [hr, Bool.false_eq_true, imp_false, not_not, Bool.not_eq_true] at hStop hPhase
  exact ⟨hPhase, hStop⟩

/-- RX_START (R170). -/
theorem rxStart_inv {s : State} (h : Inv s) (hr : s.rxRunning = false) :
    Inv { s with rxRunning := true, rxStopPending := false, rxPhase := .idle, rxAppended := false } := by
  obtain ⟨hp, hs⟩ := h.stopped hr
  obtain ⟨_, hHalt, hAppended⟩ := h.idle hp
  obtain ⟨hCfg, hQ, _, hCycle, hFalse, hTrue, _⟩ := h
  rw [hp] at hCycle
  rw [hs] at hFalse hTrue
  exact ⟨hCfg, hQ, ⟨nofun, fun _ => rfl, nofun⟩, hCycle, hFalse, hTrue, by simp [hHalt]⟩

/-- RX_STOP while the agent runs: the first call is the one that took effect (R171). -/
theorem rxStop_inv {s : State} (h : Inv s) (hr : s.rxRunning = true) :
    Inv { s with rxStopPending := true, waiting := s.waiting ++ [.stop !s.rxStopPending] } := by
  obtain ⟨hCfg, hQ, ⟨_, hPhase, hAppended⟩, hCycle, _, hTrue, hLast⟩ := h
  refine ⟨hCfg, hQ, ⟨fun _ => hr, hPhase, hAppended⟩, by simpa using hCycle, fun _ => rfl, ?_,
    fun hh => ⟨rfl, (hLast hh).2⟩⟩
  cases hs : s.rxStopPending <;> simp [hs, hTrue]

/-- The bound of R23 is all that the invariant asks of `Q`. -/
theorem Inv.setQ {s : State} (h : Inv s) {q : List Byte} (hq : q.length ≤ s.cfg.capacity) :
    Inv { s with q := q } := by
  obtain ⟨hCfg, _, hRest⟩ := h
  exact ⟨hCfg, hq, hRest⟩

theorem exec_inv {i : Instr} {s t : State} (h : Inv s) (he : exec i s = .next t) : Inv t := by
  obtain ⟨_, hQ, _⟩ := id h
  rcases exec_cases he with ⟨_, _, _, rfl⟩ | ⟨b, _, _, hRoom, rfl⟩ | ⟨n, _, _, _, rfl⟩ | ⟨_, hr, rfl⟩ |
    ⟨_, hr, hs, rfl⟩ | ⟨_, hr, hs, rfl⟩ | ⟨_, hb, rfl⟩ | ⟨_, _, _, _, rfl⟩ | ⟨_, _, _, _, _, rfl⟩ |
    ⟨_, _, _, rfl⟩
  · exact h
  · exact h.setQ (by simpa using hRoom)
  · exact h.setQ (by rw [List.length_drop]; omega)
  · exact rxStart_inv h hr
  · simpa [hs] using rxStop_inv h hr
  · simpa [hs] using rxStop_inv h hr
  · exact rxCycle_inv h hb
  · exact agentStep_inv h false
  · exact h
  · exact h.setQ ((afterFrame_length_le _).trans hQ)

/-- The invariant asks nothing of the agenda and of the draws. -/
theorem Inv.setAgenda {s : State} (h : Inv s) (agenda : List Input) (draws : Nat) :
    Inv { s with agenda := agenda, draws := draws } := h

/-- A reset keeps the parameters and gives the rest its reset value (R35, R230). -/
theorem resetBlock_inv {s : State} (hCfg : s.cfg.Valid) : Inv (resetBlock s) :=
  ⟨hCfg, Nat.zero_le _, ⟨nofun, fun hp => absurd rfl hp, nofun⟩, nofun, nofun, rfl, nofun⟩

/-- Settles O50: each shape of a step (`step_cases`) keeps the invariant. -/
theorem everyStepKeepsTheInvariant : Obligations.EveryStepKeepsTheInvariant := by
  intro s t h hst
  rcases step_cases hst with
    ⟨_, c, draws, rfl⟩ | ⟨_, rest, _, _, _, he⟩ | ⟨_, _, _, _, _, rfl⟩ | ⟨_, _, _, rfl⟩
  · exact agentStep_inv (h.setAgenda _ draws) c
  · exact exec_inv (h.setAgenda rest s.draws) he
  · exact h
  · exact resetBlock_inv h.1

/-- Settles O49: the reset state is what a reset makes of itself, and R7's parameters are valid. -/
theorem resetStateMeetsTheInvariant : Obligations.ResetStateMeetsTheInvariant :=
  resetBlock_inv (s := State.reset) (by decide)

/-- Settles O46. -/
theorem resetStateHasTheResetValues : Obligations.ResetStateHasTheResetValues :=
  ⟨rfl, rfl, rfl, rfl, rfl, rfl⟩

end Sys2Proof.Machine
end

section
/-! The control bits: a cycle that is not R182's last one leaves them alone. -/

namespace Sys2Proof.Machine

/-- R25's and R26's bits are the same in both states. -/
def SameControl (s t : State) : Prop :=
  t.rxRunning = s.rxRunning ∧ t.rxStopPending = s.rxStopPending

/-- A cycle that goes on clears the control bits only as R182's last cycle. -/
theorem cycleMove_control {s t u : State} (hh : s.haltAfter = false) (ht : IngestedFrom s t)
    (hu : u = finishCycle t ∨ u = t) : SameControl s u := by
  obtain ⟨_, _, _, _, rfl⟩ := ht
  obtain rfl | rfl := hu
  · simp [SameControl, finishCycle_eq, hh]
  · exact ⟨rfl, rfl⟩

theorem runCycle_control {s : State} (hh : s.haltAfter = false) : SameControl s (runCycle s) := by
  obtain ⟨t, hIngested, ht⟩ := runCycle_cases s
  exact cycleMove_control (s := { s with rxPhase := .ingest, rxAppended := false }) hh hIngested ht

theorem agentStep_control_of_cycle (c : Bool) {s : State} (hp : s.rxPhase ≠ .idle)
    (hh : s.haltAfter = false) : SameControl s (agentStep c s) := by
  obtain ⟨hi, _⟩ | ⟨hi, _⟩ | ⟨_, ht⟩ | ⟨s0, t, ⟨_, rfl⟩ | ⟨hi, _⟩, hIngested, ht⟩ := agentStep_cases c s
  · exact absurd hi hp
  · exact absurd hi hp
  · rw [ht]
    simp [SameControl, finishCycle_eq, hh]
  · exact cycleMove_control hh hIngested ht
  · exact absurd hi hp

/-- Settles O55: of the shapes of an instruction (`exec_cases`) only a cycle could clear the bits, and
RX_CYCLE runs or goes on with one only while no stop is pending, so it is no last cycle. -/
theorem onlyStartAndStopWriteControlBits : Obligations.OnlyStartAndStopWriteControlBits := by
  intro i s t h hStart hStop he
  rcases exec_cases he with ⟨_, _, _, rfl⟩ | ⟨_, _, _, _, rfl⟩ | ⟨_, _, _, _, rfl⟩ | ⟨hi, _⟩ | ⟨hi, _⟩ |
    ⟨hi, _⟩ | ⟨_, ⟨_, _, hp⟩, rfl⟩ | ⟨_, _, hs, hp, rfl⟩ | ⟨_, _, _, _, _, rfl⟩ | ⟨_, _, _, rfl⟩
  · exact ⟨rfl, rfl⟩
  · exact ⟨rfl, rfl⟩
  · exact ⟨rfl, rfl⟩
  · exact absurd hi hStart
  · exact absurd hi hStop
  · exact absurd hi hStop
  · obtain ⟨_, hh, _⟩ := h.idle hp
    exact runCycle_control (s := { s with waiting := s.waiting ++ [.cycle] }) hh
  · obtain ⟨_, _, _, _, _, _, hLast⟩ := h
    have hh : s.haltAfter = false := by
      cases hh : s.haltAfter with
      | false => rfl
      | true => simpa [hs] using (hLast hh).1
    exact agentStep_control_of_cycle false hp hh
  · exact ⟨rfl, rfl⟩
  · exact ⟨rfl, rfl⟩

end Sys2Proof.Machine
end

section
/-! The calls of the host port: every one that was accepted is answered or still waits. -/

namespace Sys2Proof.Machine

/-- The host calls accepted so far: those answered and those that wait (R32). -/
def callCount (s : State) : Nat := s.responses.length + s.waiting.length

theorem callCount_responded (s : State) (r : Response) :
    callCount { s with responses := s.responses ++ [r] } = callCount s + 1 := by
  simp only [callCount, List.length_append, List.length_singleton]
  omega

theorem callCount_waiting (s : State) (w : Waiter) :
    callCount { s with waiting := s.waiting ++ [w] } = callCount s + 1 := by
  simp only [callCount, List.length_append, List.length_singleton]
  omega

/-- The end of a cycle answers calls that waited, and only those. -/
theorem finishCycle_callCount (s : State) : callCount (finishCycle s) = callCount s := by
  have hSplit := s.waiting.length_eq_length_filter_add Waiter.isCycle
  rw [callCount, callCount, finishCycle_eq]
  cases s.haltAfter <;> simp <;> omega

theorem runCycle_callCount (s : State) : callCount (runCycle s) = callCount s := by
  obtain ⟨t, ⟨_, _, _, _, rfl⟩, ht | ht⟩ := runCycle_cases s
  · rw [ht, finishCycle_callCount]
    rfl
  · rw [ht]
    rfl

/-- Settles O56: an instruction (`exec_cases`) responds or puts its call among those that wait, and a
cycle answers only calls that wait. -/
theorem oneResponsePerRequest : Obligations.OneResponsePerRequest := by
  intro i s t hHost he hAccepted
  change callCount t = callCount s + 1
  rcases exec_cases he with ⟨_, _, _, rfl⟩ | ⟨_, _, _, _, rfl⟩ | ⟨_, _, _, _, rfl⟩ | ⟨_, _, rfl⟩ |
    ⟨_, _, _, rfl⟩ | ⟨_, _, _, rfl⟩ | ⟨_, _, rfl⟩ | ⟨hi, hr, hs, hp, _⟩ | ⟨_, _, _, _, _, rfl⟩ | ⟨hWire, _⟩
  · exact callCount_responded s _
  · exact callCount_responded s _
  · exact callCount_responded s _
  · exact callCount_responded s _
  · exact callCount_waiting s _
  · exact callCount_waiting s _
  · exact (runCycle_callCount _).trans (callCount_waiting s _)
  · obtain hr' | hs' | hp' := hAccepted hi
    · exact absurd (hr.symm.trans hr') nofun
    · exact absurd (hs.symm.trans hs') nofun
    · exact absurd hp' hp
  · exact callCount_responded s _
  · exact absurd hHost hWire

end Sys2Proof.Machine
end

section
/-! What the outside leaves open: where no answer is listed, an operation is the same operation with a free
draw listed (R33, R214; assumption log 3), and the agent's moves by phase (R182, R183). -/

namespace Sys2Proof.Machine

/-- The state with a free draw listed as the count the transport has. -/
def withDrawnAvail (s : State) : State :=
  { s with availAnswers := [Config.freeAvail s.draws], draws := s.draws + 1 }

/-- The state with a free draw listed as the answer to the next read. -/
def withDrawnRead (s : State) : State :=
  { s with readAnswers := [Config.freeRead s.draws], draws := s.draws + 1 }

/-- The state with a free draw listed as the answer to the next write. -/
def withDrawnWrite (s : State) : State :=
  { s with writeAnswers := [Config.freeWrite s.draws], draws := s.draws + 1 }

theorem runCycle_listed {s : State} {n : Nat} {rest : List Nat} (h : s.availAnswers = n :: rest) :
    runCycle s = (if n > 0 then ingest else finishCycle)
      { s with rxPhase := .ingest, rxAppended := false, availAnswers := rest } := by
  simp only [runCycle, drawAvail, h]
  split <;> rfl

theorem runCycle_draw {s : State} (h : s.availAnswers = []) :
    runCycle s = runCycle (withDrawnAvail s) := by
  rw [runCycle_listed (s := withDrawnAvail s) rfl]
  simp only [runCycle, drawAvail, h]
  split <;> rfl

theorem resumeIngest_listed {s : State} (h : s.readAnswers ≠ []) : resumeIngest s = ingest s := by
  unfold resumeIngest
  split
  · rfl
  · exact absurd ‹_› h

theorem resumeIngest_draw {s : State} (h : s.readAnswers = []) :
    resumeIngest s = resumeIngest (withDrawnRead s) := by
  rw [resumeIngest_listed (s := withDrawnRead s) (List.cons_ne_nil _ _)]
  simp only [resumeIngest, h]
  rfl

theorem transportWrite_draw (bytes : List Byte) {s : State} (h : s.writeAnswers = []) :
    transportWrite bytes s = transportWrite bytes (withDrawnWrite s) := by
  simp only [transportWrite, drawWrite, h]
  rfl

theorem execTxSend_draw (bytes : List Byte) {s : State} (h : s.writeAnswers = []) :
    execTxSend bytes s = execTxSend bytes (withDrawnWrite s) := by
  rw [execTxSend, transportWrite_draw bytes h]
  rfl

theorem agentStep_idle (c : Bool) {s : State} (hp : s.rxPhase = .idle) :
    agentStep c s = if s.rxRunning then
      if s.rxStopPending then if c then runCycle { s with haltAfter := true } else halt s
      else runCycle s
      else s := by
  rw [agentStep, hp]

/-- While `rx_running` is 0 the agent has no move (R25). -/
theorem agentStep_stopped (c : Bool) {s : State} (hp : s.rxPhase = .idle) (hr : s.rxRunning = false) :
    agentStep c s = s := by
  rw [agentStep_idle c hp, hr]
  rfl

theorem agentStep_ingest (c : Bool) {s : State} (hp : s.rxPhase = .ingest) :
    agentStep c s = resumeIngest s := by
  rw [agentStep, hp]

theorem agentStep_extract (c : Bool) {s : State} (hp : s.rxPhase = .extract) :
    agentStep c s = finishCycle s := by
  rw [agentStep, hp]

theorem exec_rxCycle_between {s : State} (h : BetweenCycles s) :
    exec .rxCycle s = .next (runCycle { s with waiting := s.waiting ++ [.cycle] }) := by
  obtain ⟨hr, hs, hp⟩ := h
  simp [exec, execRxCycle, hr, hs, hp]

theorem step_tick {s : State} {c : Bool} {rest : List Input} (h : s.agenda = .agent c :: rest) :
    step s = .next (agentStep c { s with agenda := rest }) := by
  rw [step, h]

theorem step_tick_ingest {s : State} {c : Bool} {rest : List Input} (h : s.agenda = .agent c :: rest)
    (hp : s.rxPhase = .ingest) : step s = .next (resumeIngest { s with agenda := rest }) :=
  (step_tick h).trans (congrArg _ (agentStep_ingest c hp))

theorem step_nothing_listed {s : State} (h : s.agenda = []) : step s = .next (agentFreeStep s) := by
  rw [step, h]

/-- The choice of R182 matters only between two cycles with a stop pending. -/
theorem agentStep_choice_irrelevant (c c' : Bool) {s : State}
    (h : ¬ (s.rxPhase = .idle ∧ s.rxRunning = true ∧ s.rxStopPending = true)) :
    agentStep c s = agentStep c' s := by
  by_cases hp : s.rxPhase = .idle
  · cases hr : s.rxRunning with
    | false => rw [agentStep_stopped c hp hr, agentStep_stopped c' hp hr]
    | true =>
      have hs : s.rxStopPending = false := by simpa [hp, hr] using h
      rw [agentStep_between c ⟨hr, hs, hp⟩, agentStep_between c' ⟨hr, hs, hp⟩]
  · exact agentStep_choice c c' hp

/-- Settles O37: the draw is the answer to list, and without a draw the tick's choice has no effect. -/
theorem freeDrawsStandForAnswers : Obligations.FreeDrawsStandForAnswers := by
  refine ⟨fun s hb ha => ⟨Config.freeAvail s.draws, ?_⟩,
    fun s c rest ha hp hr => ⟨Config.freeRead s.draws, ?_⟩,
    fun s bytes hw => ⟨Config.freeWrite s.draws, execTxSend_draw bytes hw⟩,
    fun s ha hp hr hs => ⟨Config.freeLastCycle s.draws, ?_⟩, fun s c ha hn => ?_⟩
  · rw [exec_rxCycle_between hb, runCycle_draw (s := { s with waiting := s.waiting ++ [.cycle] }) ha]
    exact (exec_rxCycle_between (s := withDrawnAvail s) hb).symm
  · rw [step_tick_ingest ha hp, resumeIngest_draw (s := { s with agenda := rest }) hr]
    exact (step_tick_ingest (s := withDrawnRead s) ha hp).symm
  · rw [step_nothing_listed ha, step_tick rfl, agentFreeStep, if_pos ⟨hp, hr, hs⟩, ha]
  · rw [step_nothing_listed ha, step_tick rfl, agentFreeStep, if_neg hn, ← ha,
      agentStep_choice_irrelevant false c hn]

/-- Settles O38: while `rx_running` is 0 the phase is IDLE, and there the agent has no move (R25, R183). -/
theorem pollTicksDoNothingWhileStopped : Obligations.PollTicksDoNothingWhileStopped := by
  intro s c rest h hr
  obtain ⟨hp, _⟩ := h.stopped hr
  refine ⟨fun ha => ?_, fun ha => ?_⟩
  · exact (step_tick ha).trans (congrArg _ (agentStep_stopped c hp hr))
  · rw [step_nothing_listed ha, agentFreeStep, if_neg (by simp [hr]), agentStep_stopped false hp hr]

end Sys2Proof.Machine
end

section
/-! The output histories (R34; assumption log 2): no operation reads them. Each operation is said to
commute with putting something before them, from the shared operations up to the step. -/

namespace Sys2Proof.Machine

/-- The state with this put before its responses, its events and its sent bytes. -/
def withPast (rs : List Response) (es : List Event) (ws : List (List Byte)) (s : State) : State :=
  { s with responses := rs ++ s.responses, events := es ++ s.events, sent := ws ++ s.sent }

/-- The operation reads nothing of the output histories and keeps what stands in them. -/
def HistoryBlind (f : State → State) : Prop :=
  ∀ rs es ws s, f (withPast rs es ws s) = withPast rs es ws (f s)

theorem HistoryBlind.comp {f g : State → State} (hf : HistoryBlind f) (hg : HistoryBlind g) :
    HistoryBlind fun s => f (g s) :=
  fun rs es ws s => (congrArg f (hg rs es ws s)).trans (hf rs es ws (g s))

theorem HistoryBlind.ite {c : State → Prop} [DecidablePred c] {f g : State → State}
    (hc : ∀ rs es ws s, c (withPast rs es ws s) ↔ c s) (hf : HistoryBlind f) (hg : HistoryBlind g) :
    HistoryBlind fun s => if c s then f s else g s := by
  intro rs es ws s
  by_cases h : c s
  · simp only [hc, h, if_true, hf rs es ws s]
  · simp only [hc, h, if_false, hg rs es ws s]

/-! ### The shared operations -/

theorem respond_blind (status : Status) (result : Result) : HistoryBlind (respond status result) :=
  fun rs es ws s => by simp [respond, withPast]

theorem fifoPort_blind {operation : State → State} (h : HistoryBlind operation) :
    HistoryBlind (fifoPort operation) :=
  HistoryBlind.ite (c := fun s => s.rxRunning = true) (f := illegalOp) (fun _ _ _ _ => .rfl)
    (respond_blind _ _) h

theorem consumeFrame_blind (id : Byte) (payload : List Byte) :
    HistoryBlind (consumeFrame (wireFrame id payload)) :=
  fun rs es ws s => by simp [consumeFrame_wire, withPast]

/-! ### The receive cycle and the agent -/

theorem finishCycle_blind : HistoryBlind finishCycle :=
  fun rs es ws s => by simp [finishCycle_eq, withPast]

theorem halt_blind : HistoryBlind halt :=
  fun rs es ws s => by simp [halt, withPast]

/-- What INGEST's loop makes of a state, before the rest of the cycle (R173). -/
def afterLoop (s : State) : State :=
  let r := ingestLoop s.cfg.capacity s.readAnswers s.q s.rxAppended
  { s with q := r.q, rxAppended := r.appended, readAnswers := r.rest }

theorem ingest_eq (s : State) :
    ingest s = if (ingestLoop s.cfg.capacity s.readAnswers s.q s.rxAppended).ended
      then finishCycle (afterLoop s) else afterLoop s := rfl

theorem afterLoop_blind : HistoryBlind afterLoop := fun _ _ _ _ => rfl

theorem ingest_blind : HistoryBlind ingest := by
  simp only [funext ingest_eq]
  exact .ite (fun _ _ _ _ => .rfl) (finishCycle_blind.comp afterLoop_blind) afterLoop_blind

theorem resumeIngest_blind : HistoryBlind resumeIngest := by
  have hListed : ∀ rs es ws, ∀ s : State, s.readAnswers ≠ [] →
      resumeIngest (withPast rs es ws s) = withPast rs es ws (resumeIngest s) := by
    intro rs es ws s h
    rw [resumeIngest_listed h, resumeIngest_listed (s := withPast rs es ws s) h, ingest_blind]
  intro rs es ws s
  by_cases h : s.readAnswers = []
  · rw [resumeIngest_draw h, resumeIngest_draw (s := withPast rs es ws s) h]
    exact hListed rs es ws (withDrawnRead s) (List.cons_ne_nil _ _)
  · exact hListed rs es ws s h

theorem runCycle_blind : HistoryBlind runCycle := by
  have hListed : ∀ rs es ws n rest, ∀ s : State, s.availAnswers = n :: rest →
      runCycle (withPast rs es ws s) = withPast rs es ws (runCycle s) := by
    intro rs es ws n rest s h
    have hBody : HistoryBlind (if n > 0 then ingest else finishCycle) := by
      split
      · exact ingest_blind
      · exact finishCycle_blind
    rw [runCycle_listed h, runCycle_listed (s := withPast rs es ws s) h]
    exact hBody rs es ws { s with rxPhase := .ingest, rxAppended := false, availAnswers := rest }
  intro rs es ws s
  cases h : s.availAnswers with
  | nil =>
    rw [runCycle_draw h, runCycle_draw (s := withPast rs es ws s) h]
    exact hListed rs es ws _ [] (withDrawnAvail s) rfl
  | cons n rest => exact hListed rs es ws n rest s h

theorem agentStep_blind (c : Bool) : HistoryBlind (agentStep c) := by
  have hLast : HistoryBlind fun s => if c then runCycle { s with haltAfter := true } else halt s :=
    .ite (fun _ _ _ _ => .rfl) (runCycle_blind.comp fun _ _ _ _ => rfl) halt_blind
  have hRunning : HistoryBlind fun s => if s.rxStopPending then
      if c then runCycle { s with haltAfter := true } else halt s else runCycle s :=
    .ite (fun _ _ _ _ => .rfl) hLast runCycle_blind
  have hIdle : HistoryBlind fun s => if s.rxRunning then if s.rxStopPending then
      if c then runCycle { s with haltAfter := true } else halt s else runCycle s else s :=
    .ite (fun _ _ _ _ => .rfl) hRunning fun _ _ _ _ => rfl
  intro rs es ws s
  cases hp : s.rxPhase with
  | idle =>
    rw [agentStep_idle c hp, agentStep_idle c (s := withPast rs es ws s) hp]
    exact hIdle rs es ws s
  | ingest =>
    rw [agentStep_ingest c hp, agentStep_ingest c (s := withPast rs es ws s) hp, resumeIngest_blind]
  | extract =>
    rw [agentStep_extract c hp, agentStep_extract c (s := withPast rs es ws s) hp, finishCycle_blind]

theorem agentFreeStep_blind : HistoryBlind agentFreeStep := by
  have hChoice : HistoryBlind fun s =>
      agentStep (Config.freeLastCycle s.draws) { s with draws := s.draws + 1 } := fun rs es ws s =>
    agentStep_blind (Config.freeLastCycle s.draws) rs es ws { s with draws := s.draws + 1 }
  exact HistoryBlind.ite
    (c := fun s => s.rxPhase = .idle ∧ s.rxRunning = true ∧ s.rxStopPending = true)
    (fun _ _ _ _ => .rfl) hChoice (agentStep_blind false)

/-! ### Instructions and steps -/

/-- The instruction answers a next state, without reading the output histories. -/
def BlindInstr (i : Instr) : Prop := ∃ f, HistoryBlind f ∧ ∀ s, exec i s = .next (f s)

theorem encoder_blind {i : Instr} (h : isEncoder i = true) : BlindInstr i := by
  obtain ⟨cmd, valid, payload, he, _⟩ := exec_encoder h
  exact ⟨_, fun rs es ws s => by simp [encodeFrame_eq, withPast], he⟩

theorem wire_blind {i : Instr} (id : Byte) (payload : List Byte)
    (h : ∀ s, exec i s = .next (consumeFrame (wireFrame id payload) s)) : BlindInstr i :=
  ⟨_, consumeFrame_blind id payload, h⟩

theorem fifo_blind {i : Instr} (operation : State → State) (ho : HistoryBlind operation)
    (h : ∀ s, exec i s = .next (fifoPort operation s)) : BlindInstr i :=
  ⟨_, fifoPort_blind ho, h⟩

/-- The FIFO port's operations that only read (R152 to R155). -/
theorem fifoRead_blind {i : Instr} (result : Params → List Byte → Result)
    (h : ∀ s, exec i s = .next (fifoPort (fun s => respond .ok (result s.cfg s.q) s) s)) :
    BlindInstr i :=
  fifo_blind _ (fun rs es ws s => respond_blind .ok (result s.cfg s.q) rs es ws s) h

theorem push_blind (b : Byte) : HistoryBlind fun s =>
    respond .ok (.flag (pushByte s.cfg.capacity s.q b).2)
      { s with q := (pushByte s.cfg.capacity s.q b).1 } := fun rs es ws s =>
  respond_blind .ok (.flag (pushByte s.cfg.capacity s.q b).2) rs es ws
    { s with q := (pushByte s.cfg.capacity s.q b).1 }

theorem dec_blind (F : List Byte) : BlindInstr (.dec F) := by
  refine ⟨_, fun rs es ws s => ?_, fun s => rfl⟩
  have hcfg : (withPast rs es ws s).cfg = s.cfg := rfl
  rw [hcfg]
  cases decFrame s.cfg F with
  | none => exact respond_blind .eNoframe .none rs es ws s
  | some d => exact respond_blind .ok (.decOut d) rs es ws s

theorem drain_blind (n : Nat) : HistoryBlind fun s =>
    match drainBytes s.q n with
    | some q => respond .ok .none { s with q := q }
    | none => raiseStatus .eUnderrun s := by
  intro rs es ws s
  have hq : (withPast rs es ws s).q = s.q := rfl
  simp only [hq]
  cases drainBytes s.q n with
  | none => exact respond_blind .eUnderrun .none rs es ws s
  | some q => exact respond_blind .ok .none rs es ws { s with q := q }

theorem txSend_blind (bytes : List Byte) : BlindInstr (.txSend bytes) := by
  have hWrite : HistoryBlind fun s => (transportWrite bytes s).2 := by
    intro rs es ws s
    cases h : s.writeAnswers <;> simp [transportWrite, drawWrite, withPast, h]
  have hAnswer : ∀ rs es ws s,
      (transportWrite bytes (withPast rs es ws s)).1 = (transportWrite bytes s).1 := by
    intro rs es ws s
    cases h : s.writeAnswers <;> simp [transportWrite, drawWrite, withPast, h]
  refine ⟨fun s => if (transportWrite bytes s).1 then respond .ok .none (transportWrite bytes s).2
    else raiseStatus .eTransport (transportWrite bytes s).2, ?_, fun s => rfl⟩
  exact .ite (fun rs es ws s => by rw [hAnswer])
    ((respond_blind .ok .none).comp hWrite) ((respond_blind .eTransport .none).comp hWrite)

theorem rxStart_blind : BlindInstr .rxStart := by
  refine ⟨fun s => if s.rxRunning then respond .ok (.flag false) s
    else respond .ok (.flag true)
      { s with rxRunning := true, rxStopPending := false, rxPhase := .idle, rxAppended := false },
    ?_, fun s => rfl⟩
  exact .ite (fun _ _ _ _ => .rfl) (respond_blind _ _) ((respond_blind _ _).comp fun _ _ _ _ => rfl)

theorem rxStop_blind : BlindInstr .rxStop := by
  have hWait : HistoryBlind fun s =>
      if s.rxStopPending then { s with waiting := s.waiting ++ [.stop false] }
      else { s with rxStopPending := true, waiting := s.waiting ++ [.stop true] } :=
    .ite (fun _ _ _ _ => .rfl) (fun _ _ _ _ => rfl) fun _ _ _ _ => rfl
  exact ⟨_, HistoryBlind.ite (c := fun s => s.rxRunning = true) (fun _ _ _ _ => .rfl) hWait
    (respond_blind .ok (.flag false)), fun s => rfl⟩

theorem rxCycle_blind : BlindInstr .rxCycle := by
  have hCycle : HistoryBlind fun s =>
      if s.rxPhase = .idle then runCycle { s with waiting := s.waiting ++ [.cycle] }
      else holdRequest { sel := 0x4200 } (agentStep false s) := by
    refine .ite (fun _ _ _ _ => .rfl) (runCycle_blind.comp fun _ _ _ _ => rfl) ?_
    exact HistoryBlind.comp (f := holdRequest _) (fun _ _ _ _ => rfl) (agentStep_blind false)
  exact ⟨_, HistoryBlind.ite (c := fun s => s.rxRunning = false ∨ s.rxStopPending = true)
    (fun _ _ _ _ => .rfl) (respond_blind .ok .none) hCycle, fun s => rfl⟩

/-- Every instruction answers a next state, and without reading the output histories. -/
theorem exec_blind (i : Instr) : BlindInstr i := by
  cases i with
  | encMoveEast | encMoveWest | encMoveNorth | encMoveSouth | encStopMotion | encPark
  | encGetSiteLocation | encDisconnect | encMwtEast | encMwtWest | encMwtNorth | encMwtSouth
  | encGoto | encSync | encSetSiteLocation | encSetDateTime | encSiteLocationReport
  | encPositionReport => exact encoder_blind rfl
  | dec F => exact dec_blind F
  | fifoPush b => exact fifo_blind _ (push_blind b) fun _ => rfl
  | fifoDrain n => exact fifo_blind _ (drain_blind n.toNat) fun _ => rfl
  | fifoSnapshot => exact fifoRead_blind (fun _ q => .snap q) fun _ => rfl
  | fifoLen => exact fifoRead_blind (fun _ q => .len (BitVec.ofNat 16 q.length)) fun _ => rfl
  | fifoIsEmpty => exact fifoRead_blind (fun _ q => .flag (fifoEmpty q)) fun _ => rfl
  | fifoIsFull => exact fifoRead_blind (fun p q => .flag (fifoFull p.capacity q)) fun _ => rfl
  | rxStart => exact rxStart_blind
  | rxStop => exact rxStop_blind
  | rxCycle => exact rxCycle_blind
  | txSend bytes => exact txSend_blind bytes
  | wireNull payload | wireMoveEast payload | wireMoveWest payload | wireMoveNorth payload
  | wireMoveSouth payload | wireStopMotion payload | wirePark payload | wireGetSiteLocation payload
  | wireDisconnect payload | wireGoto payload | wireSync payload | wireSetSiteLocation payload
  | wireSetDateTime payload | wireSiteLocationReport payload | wirePositionReport payload =>
    exact wire_blind _ payload fun _ => rfl

/-- A step that is no reset: which function of the state it is, is settled by the agenda alone. -/
theorem step_blind (agenda : List Input) (hReset : ∀ rest, agenda ≠ .reset :: rest) :
    ∃ f, HistoryBlind f ∧ ∀ s : State, s.agenda = agenda → step s = .next (f s) := by
  cases agenda with
  | nil => exact ⟨_, agentFreeStep_blind, fun s ha => step_nothing_listed ha⟩
  | cons input rest =>
    have hTail : HistoryBlind fun s => { s with agenda := rest } := fun _ _ _ _ => rfl
    cases input with
    | request r =>
      cases hd : decodeRequest r with
      | ok i =>
        obtain ⟨f, hf, he⟩ := exec_blind i
        exact ⟨_, hf.comp hTail, fun s ha => by simp only [step, ha, hd, he]⟩
      | error _ =>
        exact ⟨_, HistoryBlind.comp (f := illegalOp) (respond_blind .eIllegalOp .none) hTail,
          fun s ha => by simp only [step, ha, hd]⟩
    | agent c => exact ⟨_, (agentStep_blind c).comp hTail, fun s ha => step_tick ha⟩
    | answerAvail n =>
      exact ⟨_, HistoryBlind.comp (f := settleAvail n) (fun _ _ _ _ => rfl) hTail,
        fun s ha => by simp only [step, ha]⟩
    | answerReads rs =>
      exact ⟨_, HistoryBlind.comp (f := settleReads rs) (fun _ _ _ _ => rfl) hTail,
        fun s ha => by simp only [step, ha]⟩
    | answerWrite ok =>
      exact ⟨_, HistoryBlind.comp (f := settleWrite ok) (fun _ _ _ _ => rfl) hTail,
        fun s ha => by simp only [step, ha]⟩
    | reset => exact absurd rfl (hReset rest)

/-- A reset keeps nothing of the output histories and looks at none of them (R230, R231). -/
theorem applyReset_withPast (rs : List Response) (es : List Event) (ws : List (List Byte)) (s : State) :
    applyReset (withPast rs es ws s) = applyReset s := rfl

theorem HistoryBlind.next {f : State → State} (hf : HistoryBlind f) (rs : List Response)
    (es : List Event) (ws : List (List Byte)) {s t : State}
    (h : (.next (f s) : Host.Outcome State Fault Refusal) = .next t) :
    (.next (f (withPast rs es ws s)) : Host.Outcome State Fault Refusal)
      = .next (withPast rs es ws t) := by
  injection h with h
  rw [hf, h]

/-- Settles O57: an instruction, and a step that is no reset, is a function that commutes with putting
something before the output histories. -/
theorem outputHistoriesAreNeverRead : Obligations.OutputHistoriesAreNeverRead := by
  intro s t rs es ws
  refine ⟨fun i he => ?_, fun ha hs => ?_, fun rest ha => ?_⟩
  · obtain ⟨f, hf, hExec⟩ := exec_blind i
    rw [hExec] at he
    exact (hExec (withPast rs es ws s)).trans (hf.next rs es ws he)
  · obtain ⟨f, hf, hStep⟩ := step_blind s.agenda ha
    rw [hStep s rfl] at hs
    exact (hStep (withPast rs es ws s) rfl).trans (hf.next rs es ws hs)
  · simp only [step, ha]
    exact applyReset_withPast rs es ws { s with agenda := rest }

end Sys2Proof.Machine
end

section
/-! Where the next instruction comes from (20_memory.md R55): a request at the head of the agenda, and a
16-bit table word, which is placed as one. -/

namespace Sys2Proof

theorem encodingOfTableWord_selector (w : Nat) :
    encodingOfTableWord 16 w = .request { sel := BitVec.ofNat 16 w } := if_pos le_rfl

/-- What a table word decodes to is what the encoding it stands for decodes to. -/
theorem decode_of_decodeTableWord {nbits w : Nat} {i : Instr} (h : decodeTableWord nbits w = some i) :
    decode (encodingOfTableWord nbits w) = .ok i := by
  unfold decodeTableWord at h
  split at h
  · split at h
    · next hd =>
      cases h
      exact hd
    · cases h
  · cases h

end Sys2Proof

namespace Sys2Proof.Machine

theorem step_request {s : State} {r : Request} {rest : List Input} {i : Instr}
    (h : s.agenda = .request r :: rest) (hd : decodeRequest r = .ok i) :
    step s = exec i { s with agenda := rest } := by
  simp only [step, h, hd]

theorem withFetchWord_selector (s : State) (w : Nat) :
    s.withFetchWord 16 w = placeRequest { sel := BitVec.ofNat 16 w } s := by
  rw [State.withFetchWord, encodingOfTableWord_selector]
  rfl

/-- Settles O5: a 16-bit word is placed as the request of its selector, and the step takes that request
off the agenda again. -/
theorem stepRunsSelectedInstruction : Obligations.StepRunsSelectedInstruction := by
  refine ⟨fun s r rest i => step_request, fun s w i h => ?_⟩
  have hd : decodeRequest { sel := BitVec.ofNat 16 w } = .ok i := by
    simpa only [encodingOfTableWord_selector, decode] using decode_of_decodeTableWord h
  rw [withFetchWord_selector]
  exact step_request (placeRequest_agenda s _) hd

end Sys2Proof.Machine
end

section
/-! Decoding and encoding (30_encoding.md R65 to R67, R79 to R81): each decoder as an equation over its table,
what the rows of each table have in common, and from the two the round trips. -/

namespace Sys2Proof

theorem lookup_isSome_iff_mem_keys {α β : Type} [BEq α] [LawfulBEq α] {l : List (α × β)} {a : α} :
    (l.lookup a).isSome ↔ a ∈ l.map Prod.fst := by
  simp only [List.lookup_isSome_iff, List.mem_map, beq_iff_eq, eq_comm (a := a)]

/-! ### Requests -/

theorem decodeRequest_listed {r : Request} (h : r.sel ∈ selectorTable.map Prod.fst) :
    ∃ i, decodeRequest r = .ok i := by
  obtain ⟨operation, hrow⟩ := Option.isSome_iff_exists.mp (lookup_isSome_iff_mem_keys.mpr h)
  exact ⟨operation r, by rw [decodeRequest, hrow]⟩

theorem decodeRequest_unlisted {r : Request} (h : r.sel ∉ selectorTable.map Prod.fst) :
    decodeRequest r = .error (.illegalSelector r.sel) := by
  rw [← lookup_isSome_iff_mem_keys, Option.not_isSome_iff_eq_none] at h
  rw [decodeRequest, h]

/-- The only operand of a host operation whose length is checked is DEC's, 13 bytes on the port (R31). -/
theorem selectorTable_wellFormed :
    ∀ row ∈ selectorTable, ∀ r : Request, (row.2 r).wellFormed = true := by
  simp [selectorTable, Instr.wellFormed, frameLengthOk]

theorem decodeRequest_wellFormed {r : Request} {i : Instr} (h : decodeRequest r = .ok i) :
    i.wellFormed = true := by
  unfold decodeRequest at h
  split at h
  · next hrow =>
    cases h
    exact selectorTable_wellFormed _ (mem_of_lookup hrow) r
  · cases h

/-- The port carries DEC's operand whole (R31). -/
theorem frameInOfList_toList {F : List Byte} (h : F.length = 13) : (frameInOfList F).toList = F := by
  match F, h with
  | [_, _, _, _, _, _, _, _, _, _, _, _, _], _ => rfl

/-! ### Frames -/

@[simp] theorem wireFrame_length (id : Byte) (payload : List Byte) :
    (wireFrame id payload).length = payload.length + 5 := rfl

/-- Bytes that begin with the preamble and have a fifth one are a frame with that id (R65). -/
theorem eq_wireFrame {bytes : List Byte} (hpre : bytes.take 4 = preamble) (hlen : 4 < bytes.length) :
    bytes = wireFrame (bytes.getD 4 0) (bytes.drop 5) := by
  calc bytes = bytes.take 4 ++ bytes.drop 4 := (List.take_append_drop 4 bytes).symm
    _ = preamble ++ bytes[4] :: bytes.drop 5 := by rw [hpre, List.drop_eq_getElem_cons hlen]
    _ = wireFrame (bytes.getD 4 0) (bytes.drop 5) := by simp [wireFrame, hlen]

theorem decodeFrame_wireFrame (id : Byte) {payload : List Byte} (h : payload.length = 8) :
    decodeFrame (wireFrame id payload) =
      (wireTable.lookup id).elim (.error (.unassignedId id)) fun command => .ok (command payload) := by
  have hlen : (wireFrame id payload).length = frameLen := by rw [wireFrame_length, h]; rfl
  have hpre : (wireFrame id payload).take 4 = preamble := rfl
  have hid : (wireFrame id payload).getD 4 0 = id := rfl
  rw [decodeFrame, if_neg (not_not.mpr hlen), if_neg (not_not.mpr hpre), hid]
  cases wireTable.lookup id <;> rfl

/-- What decodes as a frame is the frame of a row of R67's table, with 8 payload bytes. -/
theorem decodeFrame_inv {bytes : List Byte} {i : Instr} (h : decodeFrame bytes = .ok i) :
    ∃ row ∈ wireTable, ∃ payload : List Byte,
      payload.length = 8 ∧ bytes = wireFrame row.1 payload ∧ i = row.2 payload := by
  obtain ⟨_, hlen, hpre⟩ := decodeFrame_isWire h
  have hframe := eq_wireFrame hpre (by omega)
  have hpayload : (bytes.drop 5).length = 8 := by rw [List.length_drop, hlen]
  rw [hframe, decodeFrame_wireFrame _ hpayload] at h
  cases hrow : wireTable.lookup (bytes.getD 4 0) with
  | none =>
    rw [hrow] at h
    cases h
  | some command =>
    rw [hrow] at h
    cases h
    exact ⟨_, mem_of_lookup hrow, _, hpayload, hframe, rfl⟩

theorem wireTable_encode :
    ∀ row ∈ wireTable, ∀ payload, encode (row.2 payload) = .frame (wireFrame row.1 payload) := by
  simp [wireTable, encode]

theorem wireTable_wellFormed :
    ∀ row ∈ wireTable, ∀ payload, (row.2 payload).wellFormed = payloadLengthOk payload := by
  simp [wireTable, Instr.wellFormed]

theorem decodeFrame_wellFormed {bytes : List Byte} {i : Instr} (h : decodeFrame bytes = .ok i) :
    i.wellFormed = true := by
  obtain ⟨row, hrow, payload, hlen, _, rfl⟩ := decodeFrame_inv h
  rw [wireTable_wellFormed row hrow, payloadLengthOk, hlen]
  rfl

theorem encode_of_decodeFrame {bytes : List Byte} {i : Instr} (h : decodeFrame bytes = .ok i) :
    encode i = .frame bytes := by
  obtain ⟨row, hrow, payload, _, rfl, rfl⟩ := decodeFrame_inv h
  exact wireTable_encode row hrow payload

/-! ### The round trips -/

/-- Settles O1: a host operation's selector is the key of its row, whose operands come back as they are but
for DEC's, which goes through the port; a wire command's id is the key of its row. -/
theorem decodeEncodeGivesInstructionBack : Obligations.DecodeEncodeGivesInstructionBack := by
  intro i h
  cases i with
  | dec F =>
    have hF : F.length = 13 := beq_iff_eq.mp h
    exact congrArg (fun G => Except.ok (Instr.dec G)) (frameInOfList_toList hF)
  | wireNull payload | wireMoveEast payload | wireMoveWest payload | wireMoveNorth payload
  | wireMoveSouth payload | wireStopMotion payload | wirePark payload | wireGetSiteLocation payload
  | wireDisconnect payload | wireGoto payload | wireSync payload | wireSetSiteLocation payload
  | wireSetDateTime payload | wireSiteLocationReport payload | wirePositionReport payload =>
    have hlen : payload.length = 8 := beq_iff_eq.mp h
    exact decodeFrame_wireFrame _ hlen
  | _ => rfl

theorem encode_tableWord (i : Instr) : (encode i).tableWord = i.tableWord := by
  cases i <;> rfl

theorem encode_of_decodeRequest {r : Request} {i : Instr} (h : decodeRequest r = .ok i) :
    ∃ r', encode i = .request r' ∧ r'.sel = r.sel := by
  obtain ⟨⟨r', he⟩, hrow⟩ := decodeRequest_row h
  have hsel : r'.sel.toNat = r.sel.toNat := by
    simpa [he, hrow, Encoding.tableWord] using encode_tableWord i
  exact ⟨r', he, BitVec.eq_of_toNat_eq hsel⟩

/-- Settles O2: a decoded frame is the frame of a row of the table, so encoding gives it back; a decoded
request keeps its selector, and that the encoding decodes to the same instruction is O1. -/
theorem decodedEncodingIsRecovered : Obligations.DecodedEncodingIsRecovered := by
  refine ⟨fun e i h => ?_, fun bytes i h => encode_of_decodeFrame h, fun r i h => ?_⟩
  · cases e with
    | request r => exact decodeRequest_wellFormed h
    | frame bytes => exact decodeFrame_wellFormed h
  · obtain ⟨r', he, hsel⟩ := encode_of_decodeRequest h
    have hback := decodeEncodeGivesInstructionBack i (decodeRequest_wellFormed h)
    rw [he] at hback
    exact ⟨r', he, hsel, hback⟩

/-- Settles O4: closed words and a closed frame, by evaluation of the decoders. -/
theorem writtenOutWordsDecode : Obligations.WrittenOutWordsDecode :=
  ⟨rfl, rfl, rfl, rfl, rfl, rfl, rfl⟩

end Sys2Proof

namespace Sys2Proof.Machine

theorem step_illegalRequest {s : State} {r : Request} {rest : List Input} {e : DecodeError}
    (h : s.agenda = .request r :: rest) (hd : decodeRequest r = .error e) :
    step s = .next (illegalOp { s with agenda := rest }) := by
  simp only [step, h, hd]

/-- Settles O3: R79's list is the keys of `selectorTable`, which alone decide whether a request decodes. -/
theorem unlistedSelectorIsIllegal : Obligations.UnlistedSelectorIsIllegal :=
  ⟨fun _ h => decodeRequest_listed h,
    fun _ _ _ ha h => step_illegalRequest ha (decodeRequest_unlisted h)⟩

end Sys2Proof.Machine
end

section
/-! The encoder's answers (40_encoder.md R100): every encoder answers OK with its frame where its check
holds and E_VALIDATION where it does not, so each statement is a check, a payload and a row of R79. -/

namespace Sys2Proof.Machine

/-- A row of R79's table, said of the decoder. -/
theorem selects_of_lookup {sel : Half} {operation : Request → Instr}
    (h : selectorTable.lookup sel = some operation) : Selects sel operation := by
  rintro r rfl
  simp only [decodeRequest, h]

theorem answers_of_encodeFrame {i : Instr} {s : State} {cmd : Byte} {valid : Bool} {payload : List Byte}
    (he : exec i s = .next (encodeFrame cmd valid payload s)) :
    Answers i s (if valid then okFrame (wireFrame cmd payload) else bare .eValidation) := by
  rw [Answers, he, encodeFrame_eq]

/-- An encoder without a check answers its frame (R69, R72). -/
theorem answers_of_unchecked {i : Instr} {s : State} {cmd : Byte} {payload : List Byte}
    (he : exec i s = .next (encodeFrame cmd true payload s)) :
    Answers i s (okFrame (wireFrame cmd payload)) :=
  answers_of_encodeFrame he

/-- Both outcomes of R100, by a condition that the check decides. -/
theorem encodes_or_rejects {i : Instr} {s : State} {cmd : Byte} {valid : Bool} {payload : List Byte}
    {Sound : Prop} (he : exec i s = .next (encodeFrame cmd valid payload s))
    (hv : valid = true ↔ Sound) :
    (Sound → Answers i s (okFrame (wireFrame cmd payload))) ∧
    (¬ Sound → Answers i s (bare .eValidation)) := by
  have hAnswer := answers_of_encodeFrame he
  constructor <;> intro h <;> rw [← hv] at h
  · rwa [if_pos h] at hAnswer
  · rwa [if_neg h] at hAnswer

/-- An encoder answers with a frame exactly where its check holds: a state has one next state. -/
theorem exists_okFrame_iff {i : Instr} {s : State} {cmd : Byte} {valid : Bool} {payload : List Byte}
    (he : exec i s = .next (encodeFrame cmd valid payload s)) :
    (∃ F, Answers i s (okFrame F)) ↔ valid = true := by
  have hAnswer := answers_of_encodeFrame he
  constructor
  · rintro ⟨F, hF⟩
    rw [Answers, hAnswer] at hF
    cases valid with
    | true => rfl
    | false => simp at hF
  · rintro rfl
    exact ⟨_, hAnswer⟩

/-! ### The encoders without a check -/

/-- Settles O7: eight rows of R79's table, and R69's zero payload behind each id. -/
theorem zeroPayloadEncodersAnswerTheirFrame : Obligations.ZeroPayloadEncodersAnswerTheirFrame :=
  ⟨selects_of_lookup rfl, selects_of_lookup rfl, selects_of_lookup rfl, selects_of_lookup rfl,
    selects_of_lookup rfl, selects_of_lookup rfl, selects_of_lookup rfl, selects_of_lookup rfl,
    fun _ => ⟨answers_of_unchecked rfl, answers_of_unchecked rfl, answers_of_unchecked rfl,
      answers_of_unchecked rfl, answers_of_unchecked rfl, answers_of_unchecked rfl,
      answers_of_unchecked rfl, answers_of_unchecked rfl⟩⟩

/-- Settles O8: four rows of R79's table, and R72's payload behind each id. -/
theorem moveWhileTrackingEncodersAnswerTheirFrame :
    Obligations.MoveWhileTrackingEncodersAnswerTheirFrame :=
  ⟨selects_of_lookup rfl, selects_of_lookup rfl, selects_of_lookup rfl, selects_of_lookup rfl,
    fun _ => ⟨answers_of_unchecked rfl, answers_of_unchecked rfl, answers_of_unchecked rfl,
      answers_of_unchecked rfl⟩⟩

/-! ### The two-float encoders -/

theorem raDec_iff (p : Params) (a b : Word) :
    (inRa p a && inDec p b) = true ↔ RaInRange p a ∧ DecInRange p b := by
  rw [Bool.and_eq_true, inRa_iff, inDec_iff]

theorem latLon_iff (p : Params) (a b : Word) :
    (inLat p a && inLon p b) = true ↔ LatInRange p a ∧ LonInRange p b := by
  rw [Bool.and_eq_true, inLat_iff, inLon_iff]

/-- Settles O9: R110 and R111 differ in the id alone. -/
theorem gotoAndSyncEncodeOrReject : Obligations.GotoAndSyncEncodeOrReject := by
  refine ⟨selects_of_lookup rfl, selects_of_lookup rfl, fun s ra dec => ?_⟩
  have hGoto := encodes_or_rejects (i := .encGoto ra dec) rfl (raDec_iff s.cfg ra dec)
  have hSync := encodes_or_rejects (i := .encSync ra dec) rfl (raDec_iff s.cfg ra dec)
  exact ⟨fun h => ⟨hGoto.1 h, hSync.1 h⟩, fun h => ⟨hGoto.2 h, hSync.2 h⟩⟩

/-- Settles O10: the payload has the operands in the other order than the check (R112). -/
theorem setSiteLocationEncodesLongitudeFirst : Obligations.SetSiteLocationEncodesLongitudeFirst :=
  ⟨selects_of_lookup rfl, fun s lat lon => encodes_or_rejects rfl (latLon_iff s.cfg lat lon)⟩

/-- Settles O11: each report's own check, and field A before field B (R116, R117). -/
theorem reportEncodersEncodeOrReject : Obligations.ReportEncodersEncodeOrReject := by
  refine ⟨selects_of_lookup rfl, selects_of_lookup rfl, fun s a b => ?_⟩
  have hSite := encodes_or_rejects (i := .encSiteLocationReport a b) rfl (latLon_iff s.cfg a b)
  have hPosition := encodes_or_rejects (i := .encPositionReport a b) rfl (raDec_iff s.cfg a b)
  exact ⟨hSite.1, hSite.2, hPosition⟩

/-! ### The date and time encoder -/

/-- A valid date and time has fields of two digits each, and so has the split year (R78, R113). -/
theorem dateTimePayload_eq {p : Params} {year : Half} {month day hour minute second : Byte}
    (h : DateTimeInRange p year month day hour minute second) :
    dateTimePayload p year month day hour minute second
      = dateTimeBytes p year month day hour minute second := by
  obtain ⟨hYear, hDay, hHour, hMinute, hSecond⟩ := h
  simp only [DayInMonth, List.mem_cons, List.not_mem_nil, or_false] at hDay
  unfold dateTimePayload dateTimeBytes yhi ylo dtbyte
  cases hBcd : p.dtBCD with
  | true =>
    have hYear := hYear hBcd
    simp only [if_true]
    rw [bcd_eq (v := year.toNat / 100) (by omega), bcd_eq (v := year.toNat % 100) (by omega),
      bcd_eq (v := month.toNat) (by omega), bcd_eq (v := day.toNat) (by omega),
      bcd_eq (v := hour.toNat) (by omega), bcd_eq (v := minute.toNat) (by omega),
      bcd_eq (v := second.toNat) (by omega)]
  | false =>
    have hHigh : year.extractLsb' 8 8 = BitVec.ofNat 8 (year.toNat / 256) := by
      rw [BitVec.extractLsb', Nat.shiftRight_eq_div_pow]
    have hLow : year.extractLsb' 0 8 = BitVec.ofNat 8 (year.toNat % 256) := by
      apply BitVec.eq_of_toNat_eq
      simp
    simp [hHigh, hLow]

/-- Settles O12: the model's check is R113's, and where it holds the payload is R71's written out. -/
theorem setDateTimeEncodesOrRejects : Obligations.SetDateTimeEncodesOrRejects := by
  refine ⟨selects_of_lookup rfl, fun s year month day hour minute second => ?_⟩
  obtain ⟨hOk, hReject⟩ := encodes_or_rejects (i := .encSetDateTime year month day hour minute second)
    rfl (validDt_iff s.cfg year month day hour minute second)
  refine ⟨fun h => ?_, hReject⟩
  rw [← dateTimePayload_eq h]
  exact hOk h

/-- Of R113's month lengths February's alone depends on the year (R114). -/
theorem dayInMonth_february {year day : Nat} (h : 1 ≤ day) :
    DayInMonth year 2 day ↔ day ≤ if year % 4 = 0 then 29 else 28 := by
  simp only [DayInMonth, List.mem_cons, List.not_mem_nil, or_false, Nat.reduceEqDiff, false_and, true_and,
    false_or]
  split <;> omega

/-- Settles O13: with a valid time and year the day alone decides, by February's length. -/
theorem everyFourthYearIsLeap : Obligations.EveryFourthYearIsLeap := by
  intro s year day hour minute second hYear hHour hMinute hSecond hDay
  rw [exists_okFrame_iff rfl, validDt_iff, DateTimeInRange, ← dayInMonth_february hDay]
  exact ⟨fun ⟨_, h, _⟩ => h, fun h => ⟨hYear, h, hHour, hMinute, hSecond⟩⟩

/-! ### What a response depends on -/

/-- DEC's response (41_decoder.md R140). -/
def decResponse (p : Params) (F : List Byte) : Response :=
  (decFrame p F).elim (bare .eNoframe) fun d => { status := .ok, result := .decOut d }

theorem answers_dec (F : List Byte) (s : State) : Answers (.dec F) s (decResponse s.cfg F) := by
  rw [Answers, exec, execDec, decResponse]
  cases decFrame s.cfg F <;> rfl

/-- R143: the byte order of the fields is all that the decoder reads of the parameters. -/
theorem decFrame_congr {p p' : Params} (h : p.floatLE = p'.floatLE) (F : List Byte) :
    decFrame p F = decFrame p' F := by
  simp only [decFrame, f32from, h]

/-- Settles O16: the check and the payload of an encoder are the same under parameters that agree on the
three it reads (`exec_encoder`), and DEC's record reads one. -/
theorem codecDependsOnOperandsOnly : Obligations.CodecDependsOnOperandsOnly := by
  constructor
  · intro i p hi
    obtain ⟨cmd, valid, payload, he, hSame⟩ := exec_encoder hi
    refine ⟨if valid p then okFrame (wireFrame cmd (payload p)) else bare .eValidation, ?_⟩
    intro s hFloat hNan hBcd
    obtain ⟨hValid, hPayload⟩ := hSame s.cfg p ⟨hFloat, hNan, hBcd⟩
    rw [← hValid, ← hPayload]
    exact answers_of_encodeFrame (he s)
  · intro F p
    refine ⟨decResponse p F, fun s hFloat => ?_⟩
    rw [decResponse, ← decFrame_congr hFloat]
    exact answers_dec F s

end Sys2Proof.Machine
end

section
/-! The range checks on patterns (40_encoder.md R101, 00_scope.md R11): a pattern without its sign is ordered
as its magnitude is, since the exponent stands above the fraction, so a bound on the value is a bound on the
bits. -/

namespace Sys2Proof.Machine

/-- `f32Magnitude` as a function of the pattern without its sign. -/
def magnitudeOfBits (m : Nat) : Nat :=
  if m / 2 ^ 23 = 0 then m % 2 ^ 23 else (2 ^ 23 + m % 2 ^ 23) * 2 ^ (m / 2 ^ 23 - 1)

theorem f32Exponent_eq (u : Word) : f32Exponent u = u.toNat % 0x80000000 / 2 ^ 23 := by
  rw [f32Exponent, BitVec.extractLsb'_toNat, Nat.shiftRight_eq_div_pow]
  omega

theorem f32Fraction_eq (u : Word) : f32Fraction u = u.toNat % 0x80000000 % 2 ^ 23 := by
  rw [f32Fraction, BitVec.extractLsb'_toNat, Nat.shiftRight_zero]
  omega

theorem f32Magnitude_eq (u : Word) : f32Magnitude u = magnitudeOfBits (u.toNat % 0x80000000) := by
  rw [f32Magnitude, f32Exponent_eq, f32Fraction_eq, magnitudeOfBits]

theorem f32Sign_iff (u : Word) : f32Sign u = true ↔ 0x80000000 ≤ u.toNat := by
  have hMsb : f32Sign u = u.msb := (BitVec.msb_eq_getLsbD_last u).symm
  rw [hMsb, BitVec.msb_eq_decide, decide_eq_true_eq]

/-- A carry out of the fraction goes into the exponent and still makes the magnitude larger. -/
theorem magnitudeOfBits_strictMono : StrictMono magnitudeOfBits := by
  refine strictMono_nat_of_lt_succ fun m => ?_
  unfold magnitudeOfBits
  by_cases hCarry : m % 2 ^ 23 + 1 = 2 ^ 23
  · have hExp : (m + 1) / 2 ^ 23 = m / 2 ^ 23 + 1 := by omega
    have hFrac : (m + 1) % 2 ^ 23 = 0 := by omega
    rw [hExp, hFrac, if_neg (Nat.succ_ne_zero _), Nat.add_sub_cancel, Nat.add_zero]
    split
    · next hZero =>
      rw [hZero]
      omega
    · next hNormal =>
      obtain ⟨k, hk⟩ := Nat.exists_eq_succ_of_ne_zero hNormal
      have hPos : 0 < 2 ^ k := Nat.two_pow_pos k
      rw [hk, Nat.succ_eq_add_one, Nat.add_sub_cancel, pow_succ 2 k, mul_comm (2 ^ k) 2, ← mul_assoc]
      exact Nat.mul_lt_mul_of_pos_right (by omega) hPos
  · have hExp : (m + 1) / 2 ^ 23 = m / 2 ^ 23 := by omega
    have hFrac : (m + 1) % 2 ^ 23 = m % 2 ^ 23 + 1 := by omega
    rw [hExp, hFrac]
    split
    · omega
    · exact Nat.mul_lt_mul_of_pos_right (by omega) (Nat.two_pow_pos _)

theorem f32Magnitude_le_iff (u : Word) (m : Nat) :
    f32Magnitude u ≤ magnitudeOfBits m ↔ u.toNat % 0x80000000 ≤ m := by
  rw [f32Magnitude_eq, magnitudeOfBits_strictMono.le_iff_le]

theorem f32Magnitude_lt_iff (u : Word) (m : Nat) :
    f32Magnitude u < magnitudeOfBits m ↔ u.toNat % 0x80000000 < m := by
  rw [f32Magnitude_eq, magnitudeOfBits_strictMono.lt_iff_lt]

/-- Only the two zeros have magnitude 0. -/
theorem f32Magnitude_eq_zero_iff (u : Word) : f32Magnitude u = 0 ↔ u.toNat % 0x80000000 = 0 := by
  rw [f32Magnitude_eq]
  exact magnitudeOfBits_strictMono.injective.eq_iff (b := 0)

theorem isNaN_of_finite {u : Word} (he : f32Exponent u ≠ 0xFF) : isNaN u = false := by
  simp [isNaN, he]

theorem f32Value_finite {u : Word} (he : f32Exponent u ≠ 0xFF) :
    f32Value u = .finite (f32Scaled u) := by
  rw [f32Value, isNaN_of_finite he, if_neg Bool.false_ne_true, if_neg he, f32Scaled]

theorem f32Value_infinite {u : Word} (hn : isNaN u = false) (he : f32Exponent u = 0xFF) :
    f32Value u = if f32Sign u then .negInf else .posInf := by
  rw [f32Value, hn, if_neg Bool.false_ne_true, if_pos he]

/-- An infinity's pattern, read as a magnitude, is above every bound that a check has. -/
theorem le_f32Magnitude_infinite {u : Word} (he : f32Exponent u = 0xFF) :
    2 ^ 128 * 2 ^ 149 ≤ f32Magnitude u := by
  rw [f32Magnitude, he, if_neg (by decide)]
  calc (2 : Nat) ^ 128 * 2 ^ 149 = 2 ^ 23 * 2 ^ (0xFF - 1) := by norm_num
    _ ≤ (2 ^ 23 + f32Fraction u) * 2 ^ (0xFF - 1) := Nat.mul_le_mul_right _ (Nat.le_add_right _ _)

/-! ### The closed checks -/

theorem inClosed_finite (lo hi : Int) {u : Word} (he : f32Exponent u ≠ 0xFF) :
    inClosed lo hi u = true ↔ lo * 2 ^ 149 ≤ f32Scaled u ∧ f32Scaled u ≤ hi * 2 ^ 149 := by
  simp only [inClosed, f32Value_finite he, f32Const, F32Value.le, Bool.and_eq_true, decide_eq_true_eq]

theorem inClosed_infinite (lo hi : Int) {u : Word} (hn : isNaN u = false) (he : f32Exponent u = 0xFF) :
    inClosed lo hi u = false := by
  rw [inClosed, f32Value_infinite hn he]
  cases f32Sign u <;> rfl

/-- A closed check with ends of one size is a bound on the magnitude, at an infinity too. -/
theorem inClosed_iff_magnitude {u : Word} (hn : isNaN u = false) {c : Nat} (hc : c < 2 ^ 128) :
    inClosed (-c) c u = true ↔ f32Magnitude u ≤ c * 2 ^ 149 := by
  by_cases he : f32Exponent u = 0xFF
  · have hBig := le_f32Magnitude_infinite he
    rw [inClosed_infinite _ _ hn he]
    simp only [Bool.false_eq_true, false_iff]
    omega
  · rw [inClosed_finite _ _ he, f32Scaled]
    split <;> omega

theorem inClosed_iff_bits (p : Params) {u : Word} (hn : isNaN u = false) {c m : Nat} (hc : c < 2 ^ 128)
    (hm : magnitudeOfBits m = c * 2 ^ 149) :
    nanok p u (inClosed (-c) c u) = true ↔ u.toNat % 0x80000000 ≤ m := by
  rw [nanok, hn, if_neg Bool.false_ne_true, inClosed_iff_magnitude hn hc, ← hm, f32Magnitude_le_iff]

/-! ### The check of a right ascension -/

theorem inRa_finite (p : Params) {u : Word} (he : f32Exponent u ≠ 0xFF) :
    inRa p u = true ↔ 0 ≤ f32Scaled u ∧ f32Scaled u < 24 * 2 ^ 149 := by
  rw [inRa, nanok, isNaN_of_finite he, if_neg Bool.false_ne_true, f32Value_finite he]
  simp only [f32Const, F32Value.le, F32Value.lt, Bool.and_eq_true, decide_eq_true_eq, zero_mul]

theorem inRa_infinite (p : Params) {u : Word} (hn : isNaN u = false) (he : f32Exponent u = 0xFF) :
    inRa p u = false := by
  rw [inRa, nanok, hn, if_neg Bool.false_ne_true, f32Value_infinite hn he]
  cases f32Sign u <;> rfl

/-- Not below 0 and below an open upper end: a negative pattern passes only as the zero with a sign. -/
theorem inRa_iff_magnitude (p : Params) {u : Word} (hn : isNaN u = false) :
    inRa p u = true ↔
      if f32Sign u then f32Magnitude u = 0 else f32Magnitude u < 24 * 2 ^ 149 := by
  by_cases he : f32Exponent u = 0xFF
  · have hBig := le_f32Magnitude_infinite he
    rw [inRa_infinite p hn he]
    simp only [Bool.false_eq_true, false_iff]
    split <;> omega
  · rw [inRa_finite p he, f32Scaled]
    split <;> omega

theorem inRa_iff_bits (p : Params) {u : Word} (hn : isNaN u = false) :
    inRa p u = true ↔ u = 0x80000000 ∨ u.toNat < 0x41C00000 := by
  have hBound : magnitudeOfBits 0x41C00000 = 24 * 2 ^ 149 := by norm_num [magnitudeOfBits]
  have hNegZero : u = 0x80000000 ↔ u.toNat = 0x80000000 := BitVec.toNat_eq
  rw [inRa_iff_magnitude p hn, f32Magnitude_eq_zero_iff, ← hBound, f32Magnitude_lt_iff, hNegZero]
  by_cases hs : 0x80000000 ≤ u.toNat
  · rw [if_pos ((f32Sign_iff u).mpr hs)]
    omega
  · rw [if_neg (mt (f32Sign_iff u).mp hs)]
    omega

/-- Settles O14: 24, 90 and 180 are the patterns 0x41C00000, 0x42B40000 and 0x43340000. -/
theorem rangeChecksCompareBits : Obligations.RangeChecksCompareBits := by
  intro p u hn
  have hNinety : magnitudeOfBits 0x42B40000 = 90 * 2 ^ 149 := by norm_num [magnitudeOfBits]
  have hLat : magnitudeOfBits 0x43340000 = 180 * 2 ^ 149 := by norm_num [magnitudeOfBits]
  exact ⟨inRa_iff_bits p hn, inClosed_iff_bits p hn (by norm_num) hNinety,
    inClosed_iff_bits p hn (by norm_num) hLat, inClosed_iff_bits p hn (by norm_num) hNinety⟩

end Sys2Proof.Machine
end

section
/-! The decoder (41_decoder.md R140 to R144): DEC's answer by the frame it reads, the inverse of the encoder's
payloads, and what a wire command of each kind does with its frame. -/

namespace Sys2Proof.Machine

/-! ### DEC's answer -/

/-- The record of a frame (R140). -/
theorem decResponse_of_preamble (p : Params) {F : List Byte} (hpre : F.take 4 = preamble)
    (hlen : F.length = 13) :
    decResponse p F =
      { status := .ok
        result := .decOut
          { kind := decKind (F.getD 4 0)
            id := F.getD 4 0
            payload := F.drop 5
            fa := f32from p (F.getD 5 0) (F.getD 6 0) (F.getD 7 0) (F.getD 8 0)
            fb := f32from p (F.getD 9 0) (F.getD 10 0) (F.getD 11 0) (F.getD 12 0) } } := by
  have hpayload : (F.drop 5).take 8 = F.drop 5 := List.take_of_length_le (by rw [List.length_drop, hlen])
  rw [decResponse, decFrame, if_neg (not_not.mpr hpre), hpayload]
  rfl

theorem decResponse_of_noPreamble (p : Params) {F : List Byte} (hpre : F.take 4 ≠ preamble) :
    decResponse p F = bare .eNoframe := by
  rw [decResponse, decFrame, if_pos hpre]
  rfl

/-- Settles O17: DEC's row of R79's table, and its answer with the preamble and without it. -/
theorem decClassifiesFrames : Obligations.DecClassifiesFrames := by
  refine ⟨selects_of_lookup rfl, fun s F hlen => ⟨fun hpre => ?_, fun hpre => ?_⟩⟩
  · have hAnswer := answers_dec F s
    rwa [decResponse_of_preamble s.cfg hpre hlen] at hAnswer
  · have hAnswer := answers_dec F s
    rwa [decResponse_of_noPreamble s.cfg hpre] at hAnswer

theorem answers_dec_wireFrame (s : State) (id : Byte) {payload : List Byte} (h : payload.length = 8) :
    Answers (.dec (wireFrame id payload)) s
      { status := .ok
        result := .decOut { kind := decKind id, id := id, payload := payload,
                            fa := fieldA s.cfg payload, fb := fieldB s.cfg payload } } := by
  have hAnswer := answers_dec (wireFrame id payload) s
  rwa [decResponse_of_preamble s.cfg rfl (by rw [wireFrame_length, h])] at hAnswer

/-! ### The payloads of the encoders and the decoder's fields -/

@[simp] theorem f32bytes_length (p : Params) (u : Word) : (f32bytes p u).length = 4 := by
  unfold f32bytes
  split <;> rfl

@[simp] theorem twoFloatPayload_length (p : Params) (a b : Word) :
    (twoFloatPayload p a b).length = 8 := by
  simp [twoFloatPayload]

theorem f32bytes_eq_four (p : Params) (u : Word) :
    ∃ b0 b1 b2 b3 : Byte, f32bytes p u = [b0, b1, b2, b3] := by
  unfold f32bytes
  split <;> exact ⟨_, _, _, _, rfl⟩

/-- The fields that the decoder reads are the patterns that the encoder wrote (R11, R76). -/
theorem fields_twoFloatPayload (p : Params) (a b : Word) :
    fieldA p (twoFloatPayload p a b) = a ∧ fieldB p (twoFloatPayload p a b) = b := by
  obtain ⟨a0, a1, a2, a3, ha⟩ := f32bytes_eq_four p a
  obtain ⟨b0, b1, b2, b3, hb⟩ := f32bytes_eq_four p b
  rw [twoFloatPayload, ha, hb]
  exact ⟨f32from_of_f32bytes_eq ha, f32from_of_f32bytes_eq hb⟩

/-- The payload that the encoder writes of a payload's two fields is that payload (R11, R76). -/
theorem twoFloatPayload_fields (p : Params) {payload : List Byte} (h : payload.length = 8) :
    twoFloatPayload p (fieldA p payload) (fieldB p payload) = payload := by
  match payload, h with
  | [a0, a1, a2, a3, b0, b1, b2, b3], _ =>
    exact congrArg₂ (· ++ ·) (f32bytes_f32from p a0 a1 a2 a3) (f32bytes_f32from p b0 b1 b2 b3)

/-! ### DEC of an encoder's frame -/

/-- An instruction answers in one way only. -/
theorem Answers.unique {i : Instr} {s : State} {r r' : Response} (h : Answers i s r)
    (h' : Answers i s r') : r = r' := by
  have hNext := h.symm.trans h'
  simpa using hNext

theorem eq_wireFrame_of_answers {i : Instr} {s : State} {cmd : Byte} {valid : Bool}
    {payload F : List Byte} (he : exec i s = .next (encodeFrame cmd valid payload s))
    (hF : Answers i s (okFrame F)) : F = wireFrame cmd payload := by
  obtain rfl := (exists_okFrame_iff he).mp ⟨F, hF⟩
  simpa using hF.unique (answers_of_encodeFrame he)

/-- DEC of the frame of an encoder with a two-float payload recovers both operands (R144). -/
theorem answers_dec_of_twoFloat {i : Instr} {s : State} {cmd : Byte} {valid : Bool} {a b : Word}
    {kind : DecKind} {F : List Byte} (hKind : decKind cmd = kind)
    (he : exec i s = .next (encodeFrame cmd valid (twoFloatPayload s.cfg a b) s))
    (hF : Answers i s (okFrame F)) :
    Answers (.dec F) s
      { status := .ok
        result := .decOut { kind := kind, id := cmd,
                            payload := f32bytes s.cfg a ++ f32bytes s.cfg b, fa := a, fb := b } } := by
  obtain ⟨hA, hB⟩ := fields_twoFloatPayload s.cfg a b
  have hDec := answers_dec_wireFrame s cmd (twoFloatPayload_length s.cfg a b)
  rw [hA, hB, hKind] at hDec
  rw [eq_wireFrame_of_answers he hF]
  exact hDec

/-- An encoder that is no report's writes its selector's low byte, an unhandled id, and 8 payload bytes
(R67, R69 to R72, R79, R100). -/
theorem exec_unhandledEncoder {i : Instr} {r : Request} (hi : isEncoder i = true)
    (he : encode i = .request r) (hSite : r.sel ≠ 0x10FE) (hPosition : r.sel ≠ 0x10FF) (s : State) :
    ∃ (valid : Bool) (payload : List Byte),
      exec i s = .next (encodeFrame (BitVec.ofNat 8 r.sel.toNat) valid payload s) ∧
      decKind (BitVec.ofNat 8 r.sel.toNat) = .unhandled ∧ payload.length = 8 := by
  cases i with
  | encMoveEast | encMoveWest | encMoveNorth | encMoveSouth | encStopMotion | encPark
  | encGetSiteLocation | encDisconnect | encMwtEast | encMwtWest | encMwtNorth | encMwtSouth
  | encSetDateTime =>
    cases he
    dsimp only
    exact ⟨_, _, rfl, rfl, rfl⟩
  | encGoto | encSync | encSetSiteLocation =>
    cases he
    dsimp only
    exact ⟨_, _, rfl, rfl, twoFloatPayload_length _ _ _⟩
  | encSiteLocationReport =>
    cases he
    exact absurd rfl hSite
  | encPositionReport =>
    cases he
    exact absurd rfl hPosition
  | dec | fifoPush | fifoDrain | fifoSnapshot | fifoLen | fifoIsEmpty | fifoIsFull | rxStart | rxStop
  | rxCycle | txSend | wireNull | wireMoveEast | wireMoveWest | wireMoveNorth | wireMoveSouth
  | wireStopMotion | wirePark | wireGetSiteLocation | wireDisconnect | wireGoto | wireSync
  | wireSetSiteLocation | wireSetDateTime | wireSiteLocationReport | wirePositionReport => cases hi

/-- Encoding the fields of a frame gives the frame back, where they pass the encoder's check (R144). -/
theorem answers_reencoded {i : Instr} {s : State} {cmd : Byte} {valid : Bool} {Sound : Prop}
    {F : List Byte} (hlen : F.length = 13) (hpre : F.take 4 = preamble) (hid : F.getD 4 0 = cmd)
    (he : exec i s = .next (encodeFrame cmd valid
      (twoFloatPayload s.cfg (fieldA s.cfg (F.drop 5)) (fieldB s.cfg (F.drop 5))) s))
    (hv : valid = true ↔ Sound) (hs : Sound) : Answers i s (okFrame F) := by
  have hpayload : (F.drop 5).length = 8 := by rw [List.length_drop, hlen]
  have hAnswer := (encodes_or_rejects he hv).1 hs
  rwa [twoFloatPayload_fields s.cfg hpayload, ← hid, ← eq_wireFrame hpre (by omega)] at hAnswer

/-- Settles O18: an encoder that answers OK answers its own frame, DEC of which is known; the two-float
payload and the decoder's fields are inverse in both directions. -/
theorem decodeRecoversEncodedReports : Obligations.DecodeRecoversEncodedReports := by
  refine fun s F => ⟨fun a b => ⟨answers_dec_of_twoFloat rfl rfl, answers_dec_of_twoFloat rfl rfl⟩, ?_, ?_⟩
  · intro i r hi he hSite hPosition hF
    obtain ⟨valid, payload, hExec, hKind, hlen⟩ := exec_unhandledEncoder hi he hSite hPosition s
    obtain rfl := eq_wireFrame_of_answers hExec hF
    have hDec := answers_dec_wireFrame s (BitVec.ofNat 8 r.sel.toNat) hlen
    rw [hKind] at hDec
    exact ⟨_, _, hDec⟩
  · exact fun hlen hpre =>
      ⟨fun hid hRa hDec => answers_reencoded hlen hpre hid rfl (raDec_iff _ _ _) ⟨hRa, hDec⟩,
        fun hid hLat hLon => answers_reencoded hlen hpre hid rfl (latLon_iff _ _ _) ⟨hLat, hLon⟩⟩

/-! ### Wire commands -/

theorem reportEvents_of_unhandled {id : Byte} (h : decKind id = .unhandled) (p : Params)
    (payload : List Byte) : reportEvents p id payload = [] := by
  unfold decKind at h
  split at h
  · cases h
  · split at h
    · cases h
    · next hPosition hSite => rw [reportEvents, if_neg hPosition, if_neg hSite]

/-- A frame of an unhandled id only leaves `Q` (R142, R176, R177). -/
theorem consumeFrame_unhandled {id : Byte} (h : decKind id = .unhandled) (payload : List Byte)
    (s : State) : consumeFrame (wireFrame id payload) s = { s with q := afterFrame s.q } := by
  rw [consumeFrame_wire, reportEvents_of_unhandled h, List.append_nil]

/-- Settles O39: each of the 13 commands consumes the frame of an unhandled id. -/
theorem unhandledWireCommandsAreConsumedSilently :
    Obligations.UnhandledWireCommandsAreConsumedSilently := by
  intro s p i hi
  obtain ⟨id, hExec, hKind⟩ : ∃ id, exec i s = .next (consumeFrame (wireFrame id p) s) ∧
      decKind id = .unhandled := by
    simp only [List.mem_cons, List.not_mem_nil, or_false] at hi
    rcases hi with rfl | rfl | rfl | rfl | rfl | rfl | rfl | rfl | rfl | rfl | rfl | rfl | rfl <;>
      exact ⟨_, rfl, rfl⟩
  rw [hExec, consumeFrame_unhandled hKind]

/-- Settles O40: each report command consumes the frame of its id, whose event is R176's. -/
theorem wireReportsRaiseTheirEvent : Obligations.WireReportsRaiseTheirEvent := by
  intro s p hp
  have hConsume : ∀ id, consumeFrame (wireFrame id p) s
      = { s with events := s.events ++ reportEvents s.cfg id p, q := afterFrame s.q } := fun id => by
    rw [consumeFrame_wire, List.take_of_length_le hp.le]
  exact ⟨congrArg Host.Outcome.next (hConsume 0xFF), congrArg Host.Outcome.next (hConsume 0xFE)⟩

end Sys2Proof.Machine
end

section
/-! The FIFO port (42_fifo.md R150 to R157): what a request does with the port open and with it closed, and
a run of pushes while the agent is stopped. -/

namespace Sys2Proof.Machine

/-! ### The port, open and closed -/

theorem exec_of_stopped {i : Instr} {s t : State} {operation : State → State}
    (he : exec i s = .next (fifoPort operation s)) (hr : s.rxRunning = false) (ho : operation s = t) :
    exec i s = .next t := by rw [he, fifoPort_stopped _ hr, ho]

theorem answers_of_running {i : Instr} {s : State} {operation : State → State}
    (he : exec i s = .next (fifoPort operation s)) (hr : s.rxRunning = true) :
    Answers i s (bare .eIllegalOp) := by
  rw [Answers, he, fifoPort_running _ hr]
  rfl

/-- Settles O22: the port is closed before any operation looks at `Q` or its operand. -/
theorem fifoPortIsClosedWhileRunning : Obligations.FifoPortIsClosedWhileRunning := by
  intro s b n hr i hi
  simp only [List.mem_cons, List.not_mem_nil, or_false] at hi
  rcases hi with rfl | rfl | rfl | rfl | rfl | rfl <;> exact answers_of_running rfl hr

/-! ### The mutators -/

theorem exec_fifoPush_stopped {s : State} (b : Byte) (hr : s.rxRunning = false) :
    exec (.fifoPush b) s = .next { s with
      q := (pushByte s.cfg.capacity s.q b).1
      responses := s.responses ++ [okFlag (pushByte s.cfg.capacity s.q b).2] } :=
  exec_of_stopped rfl hr rfl

/-- Settles O19: the flag and the contents are those of the FIFO's push. -/
theorem pushAppendsOrIsRefused : Obligations.PushAppendsOrIsRefused := by
  refine ⟨selects_of_lookup rfl, fun s b hr => ⟨fun hRoom => ?_, fun hFull => ?_⟩⟩
  · rw [exec_fifoPush_stopped b hr, pushByte_of_lt b hRoom]
  · rw [Answers, exec_fifoPush_stopped b hr, pushByte_of_full b (Nat.not_lt.mp hFull)]

/-- Settles O20: the new contents are those of the FIFO's drain, and where it has none nothing is written. -/
theorem drainDropsOldestBytes : Obligations.DrainDropsOldestBytes := by
  refine ⟨selects_of_lookup rfl, fun s n hr => ⟨fun hLe => ?_, fun hGt => ?_⟩⟩
  · exact exec_of_stopped rfl hr (by rw [drainBytes_of_le hLe]; rfl)
  · exact exec_of_stopped rfl hr (by rw [drainBytes_of_gt hGt]; rfl)

/-! ### The reads -/

theorem fifoEmpty_eq (q : List Byte) : fifoEmpty q = decide (q = []) := by
  rw [fifoEmpty, Bool.beq_eq_decide_eq]
  exact decide_eq_decide.mpr List.length_eq_zero_iff

theorem fifoFull_eq (capacity : Nat) (q : List Byte) :
    fifoFull capacity q = decide (q.length = capacity) := Bool.beq_eq_decide_eq _ _

/-- Settles O21: R23's bound and R7's bound on `N` are why the length fits in 16 bits. -/
theorem fifoReadsReportContents : Obligations.FifoReadsReportContents := by
  refine ⟨selects_of_lookup rfl, selects_of_lookup rfl, selects_of_lookup rfl, selects_of_lookup rfl,
    fun s hr ⟨_, hCapacity⟩ hq => ⟨exec_of_stopped rfl hr rfl, ?_, ?_, ?_⟩⟩
  · have hFits : s.q.length < 2 ^ 16 := by
      calc s.q.length ≤ s.cfg.capacity := hq
        _ < 2 ^ 16 := by omega
    exact ⟨BitVec.ofNat 16 s.q.length, by rw [BitVec.toNat_ofNat, Nat.mod_eq_of_lt hFits],
      exec_of_stopped rfl hr rfl⟩
  · rw [← fifoEmpty_eq]
    exact exec_of_stopped rfl hr rfl
  · rw [← fifoFull_eq]
    exact exec_of_stopped rfl hr rfl

/-! ### Pushes one after the other -/

theorem execAll_cons_of_next {i : Instr} {s t : State} (h : exec i s = .next t) (is : List Instr) :
    execAll (i :: is) s = execAll is t := by simp only [execAll, h]

/-- Within R23's bound, room or no room, a push is an append that is cut at the capacity. -/
theorem pushByte_eq_take {n : Nat} {q : List Byte} (b : Byte) (h : q.length ≤ n) :
    pushByte n q b = ((q ++ [b]).take n, decide (q.length < n)) := by
  obtain hRoom | rfl := h.lt_or_eq
  · rw [pushByte_of_lt b hRoom, List.take_of_length_le (by simpa using hRoom), decide_eq_true hRoom]
  · rw [pushByte_of_full b le_rfl, List.take_left, decide_eq_false (lt_irrefl _)]

/-- A cut at the capacity before more bytes come makes no difference to the cut after them. -/
theorem take_take_append (n : Nat) (q bs : List Byte) :
    (q.take n ++ bs).take n = (q ++ bs).take n := by
  have hRest : n - min n q.length = n - q.length := by omega
  rw [List.take_append, List.take_append, List.take_take, min_self, List.length_take, hRest]

/-- The responses to `count` pushes one after the other into a FIFO that holds `length` bytes (R150). -/
def pushResponses (capacity length count : Nat) : List Response :=
  (List.range count).map fun k => okFlag (decide (length + k < capacity))

/-- The first push answers for the bytes held, the others for what it left: one byte more, but no more
than the capacity. -/
theorem pushResponses_succ (capacity length count : Nat) :
    pushResponses capacity length (count + 1) =
      okFlag (decide (length < capacity)) ::
        pushResponses capacity (min capacity (length + 1)) count := by
  have hShift : ∀ k, length + (k + 1) < capacity ↔ min capacity (length + 1) + k < capacity := by
    omega
  simp [pushResponses, List.range_succ_eq_map, Function.comp_def, hShift]

/-- Settles O23, by induction on the bytes: a push leaves `Q` within R23's bound, with the contents and the
length that the others go on from. -/
theorem pushesFillInOrderUpToCapacity : Obligations.PushesFillInOrderUpToCapacity := by
  intro s bs hr hq
  change _ = Host.Outcome.next { s with
    q := (s.q ++ bs).take s.cfg.capacity
    responses := s.responses ++ pushResponses s.cfg.capacity s.q.length bs.length }
  induction bs generalizing s with
  | nil => simp [execAll, pushResponses, List.take_of_length_le hq]
  | cons b bs ih =>
    have hPush := exec_fifoPush_stopped b hr
    rw [pushByte_eq_take b hq] at hPush
    rw [List.map_cons, execAll_cons_of_next hPush, ih]
    · simp [take_take_append, pushResponses_succ]
    · exact hr
    · exact List.length_take_le _ _

end Sys2Proof.Machine
end

section
/-! Extraction (43_framer.md R174 to R179): the search for the first preamble, the frame that starts there,
and what is left of the bytes. -/

namespace Sys2Proof.Machine

/-! ### The preamble search -/

/-- The preamble stands at the index `i` of `S`. -/
abbrev PreambleAt (S : List Byte) (i : Nat) : Prop := (S.drop i).take 4 = preamble

theorem PreambleAt.bound {S : List Byte} {i : Nat} (h : PreambleAt S i) : i + 4 ≤ S.length := by
  have hlen : min 4 (S.length - i) = 4 := by
    simpa [preamble] using congrArg List.length h
  omega

/-- The search passes over a byte at which the preamble does not stand. -/
theorem findPreamble_cons_of_not {b : Byte} {S : List Byte} (h : ¬ PreambleAt (b :: S) 0) :
    findPreamble (b :: S) = (findPreamble S).map (· + 1) := if_neg h

theorem findPreamble_none_iff (S : List Byte) : findPreamble S = none ↔ ∀ j, ¬ PreambleAt S j := by
  induction S with
  | nil => simp [findPreamble, preamble]
  | cons b S ih =>
    by_cases h : PreambleAt (b :: S) 0
    · simpa [findPreamble, show (b :: S).take 4 = preamble from h] using ⟨0, h⟩
    · rw [findPreamble_cons_of_not h, Option.map_eq_none_iff, ih]
      exact ⟨fun hS j => j.casesOn h hS, fun hS j => hS (j + 1)⟩

/-- No preamble stands before the index that the search finds. -/
theorem findPreamble_least {S : List Byte} {i : Nat} (h : findPreamble S = some i) :
    ∀ j < i, ¬ PreambleAt S j := by
  induction S generalizing i with
  | nil => cases h
  | cons b S ih =>
    by_cases h0 : PreambleAt (b :: S) 0
    · obtain rfl : 0 = i := Option.some.inj ((if_pos h0).symm.trans h)
      exact fun j hj => absurd hj (Nat.not_lt_zero j)
    · rw [findPreamble_cons_of_not h0, Option.map_eq_some_iff] at h
      obtain ⟨k, hk, rfl⟩ := h
      intro j hj
      cases j with
      | zero => exact h0
      | succ j => exact ih hk j (Nat.lt_of_succ_lt_succ hj)

theorem findPreamble_some_iff (S : List Byte) (i : Nat) :
    findPreamble S = some i ↔ PreambleAt S i ∧ ∀ j < i, ¬ PreambleAt S j := by
  refine ⟨fun h => ⟨findPreamble_isPreamble h, findPreamble_least h⟩, fun ⟨hi, hLeast⟩ => ?_⟩
  cases hk : findPreamble S with
  | none => exact absurd hi ((findPreamble_none_iff S).mp hk i)
  | some k =>
    have hki : ¬ k < i := fun hlt => hLeast k hlt (findPreamble_isPreamble hk)
    have hik : ¬ i < k := fun hlt => findPreamble_least hk i hlt hi
    exact congrArg some (by omega)

/-- Settles O30: the search finds the least index, by induction on the bytes, and the least is unique. -/
theorem preambleSearchFindsFirstOccurrence : Obligations.PreambleSearchFindsFirstOccurrence :=
  fun S => ⟨fun i => (findPreamble_some_iff S i).trans
    ⟨fun ⟨hi, hLeast⟩ => ⟨PreambleAt.bound hi, hi, hLeast⟩, fun ⟨_, hi, hLeast⟩ => ⟨hi, hLeast⟩⟩,
    findPreamble_none_iff S⟩

/-! ### The frame at the first preamble -/

theorem frameStart_of_whole {S : List Byte} {i : Nat} (h : findPreamble S = some i)
    (hlen : i + 13 ≤ S.length) : frameStart S = some i := by
  have hWhole : frameLen ≤ S.length - i := by
    rw [frameLen]
    omega
  simp only [frameStart, h, if_pos hWhole]

theorem frameStart_of_short {S : List Byte} {i : Nat} (h : findPreamble S = some i)
    (hlen : S.length < i + 13) : frameStart S = none := by
  have hShort : ¬ frameLen ≤ S.length - i := by
    rw [frameLen]
    omega
  simp only [frameStart, h, if_neg hShort]

theorem frameStart_of_noPreamble {S : List Byte} (h : findPreamble S = none) :
    frameStart S = none := by
  simp only [frameStart, h]

/-- Without a frame to extract nothing is dropped and nothing raised (R178). -/
theorem extraction_of_none {S : List Byte} (h : frameStart S = none) (p : Params) :
    afterFrame S = S ∧ firstFrameEvents p S = [] := by
  simp only [afterFrame, firstFrameEvents, h, and_self]

theorem afterFrame_of_some {S : List Byte} {i : Nat} (h : frameStart S = some i) :
    afterFrame S = S.drop (i + 13) := by
  simp only [afterFrame, h]

/-- The fields lie in the first 8 bytes (R76). -/
theorem fields_take (p : Params) (S : List Byte) :
    fieldA p (S.take 8) = fieldA p S ∧ fieldB p (S.take 8) = fieldB p S := by
  simp [fieldA, fieldB]

theorem reportEvents_take (p : Params) (id : Byte) (S : List Byte) :
    reportEvents p id (S.take 8) = reportEvents p id S := by
  rw [reportEvents, (fields_take p S).1, (fields_take p S).2, reportEvents]

theorem firstFrameEvents_of_some {S : List Byte} {i : Nat} (h : frameStart S = some i) (p : Params) :
    firstFrameEvents p S = reportEvents p (S.getD (i + 4) 0) (S.drop (i + 5)) := by
  simp only [firstFrameEvents, h, reportEvents_take]

/-- The two report ids differ, so either may be asked for first. -/
theorem reportEvents_site_first (p : Params) (id : Byte) (payload : List Byte) :
    reportEvents p id payload =
      if id = 0xFE then [{ kind := .site, a := fieldA p payload, b := fieldB p payload }]
      else if id = 0xFF then [{ kind := .pos, a := fieldA p payload, b := fieldB p payload }]
      else [] := by
  unfold reportEvents
  by_cases h : id = 0xFF
  · subst h
    rfl
  · rw [if_neg h, if_neg h]

/-! ### A step at EXTRACT -/

theorem step_tick_extract {s : State} {c : Bool} {rest : List Input} (h : s.agenda = .agent c :: rest)
    (hp : s.rxPhase = .extract) : step s = .next (finishCycle { s with agenda := rest }) :=
  (step_tick h).trans (congrArg _ (agentStep_extract c hp))

/-- A cycle that appended ends with the extraction of the first frame. -/
theorem finishCycle_appended {s : State} (h : s.rxAppended = true) :
    (finishCycle s).q = afterFrame s.q ∧
      (finishCycle s).events = s.events ++ firstFrameEvents s.cfg s.q := by
  simp [finishCycle_eq, h]

/-- Settles O41: the step ends the cycle, and the first preamble decides what is extracted. -/
theorem extractTakesTheFirstWholeFrame : Obligations.ExtractTakesTheFirstWholeFrame := by
  intro s c rest _ ha hp happ
  obtain ⟨hq, he⟩ := finishCycle_appended (s := { s with agenda := rest }) happ
  have hStep := step_tick_extract ha hp
  have hNothing : frameStart s.q = none →
      ∃ t, step s = .next t ∧ t.q = s.q ∧ t.events = s.events := fun h => by
    obtain ⟨hAfter, hEvents⟩ := extraction_of_none h s.cfg
    exact ⟨_, hStep, hq.trans hAfter, by rw [he, hEvents, List.append_nil]⟩
  refine ⟨fun i hi hlen => ?_, fun i hi hlen => hNothing (frameStart_of_short hi hlen),
    fun hi => hNothing (frameStart_of_noPreamble hi)⟩
  have hStart := frameStart_of_whole hi hlen
  refine ⟨_, hStep, hq.trans (afterFrame_of_some hStart), ?_⟩
  rw [he, firstFrameEvents_of_some hStart, reportEvents_site_first]

/-- The meaning of a wire command is what the framer does with its frame (assumption log 9). -/
theorem wireTable_exec :
    ∀ row ∈ wireTable, ∀ payload s,
      exec (row.2 payload) s = .next (consumeFrame (wireFrame row.1 payload) s) := by
  intro row hrow payload s
  fin_cases hrow <;> rfl

theorem exec_of_decodeFrame {bytes : List Byte} {w : Instr} (h : decodeFrame bytes = .ok w) (s : State) :
    exec w s = .next (consumeFrame bytes s) := by
  obtain ⟨row, hrow, payload, _, rfl, rfl⟩ := decodeFrame_inv h
  exact wireTable_exec row hrow payload s

theorem extract_of_some {s : State} {i : Nat} (h : frameStart s.q = some i) :
    extract s = consumeFrame (frameAt s.q i) s := by
  simp only [extract, h]

/-- A cycle that appended, with no caller and no halt to follow, ends with EXTRACT alone. -/
theorem finishCycle_eq_extract {s : State} (happ : s.rxAppended = true) (hh : s.haltAfter = false)
    (hc : Waiter.cycle ∉ s.waiting) :
    finishCycle s = { extract s with rxPhase := .idle, rxAppended := false } := by
  obtain ⟨hNone, hAll⟩ := filter_of_no_cycle hc
  simp [finishCycle_eq, extract_eq, happ, hh, hNone, hAll]

/-- Settles O6: exec of the first frame's command is the framer's EXTRACT, and nothing else is left of the
cycle. -/
theorem stepRunsExtractedWireCommand : Obligations.StepRunsExtractedWireCommand := by
  intro s t c rest i w ha hp happ hh hc hStart hDecode hExec
  have hExtract : extract { s with agenda := rest } = t :=
    calc extract { s with agenda := rest }
        = consumeFrame (frameAt s.q i) { s with agenda := rest } := extract_of_some hStart
      _ = t := Host.Outcome.next.inj ((exec_of_decodeFrame hDecode _).symm.trans hExec)
  rw [step_tick_extract ha hp, finishCycle_eq_extract (s := { s with agenda := rest }) happ hh hc,
    hExtract]

end Sys2Proof.Machine
end

section
/-! The receive cycle over listed answers (43_framer.md R172, R173, R182, R183): what a cycle that ends makes
of the state, begun at a tick, by RX_CYCLE or as the last one, and RX_CYCLE beside the tick. -/

namespace Sys2Proof.Machine

/-! ### The waiting calls -/

@[simp] theorem Waiter.isCycle_cycle : Waiter.isCycle .cycle = true := rfl
@[simp] theorem Waiter.isCycle_stop (b : Bool) : Waiter.isCycle (.stop b) = false := rfl
@[simp] theorem Waiter.response_cycle : Waiter.response .cycle = bare .ok := rfl
@[simp] theorem Waiter.response_stop (b : Bool) : Waiter.response (.stop b) = okFlag b := rfl

/-- The state with one more RX_CYCLE waiting. -/
def withCaller (s : State) : State := { s with waiting := s.waiting ++ [.cycle] }

theorem exec_rxCycle_withCaller {s : State} (h : BetweenCycles s) :
    exec .rxCycle s = .next (runCycle (withCaller s)) := exec_rxCycle_between h

/-! ### A cycle that ends -/

/-- What a cycle's end does beside the extraction: the phase back to IDLE, the RX_CYCLE calls answered, and
at a last cycle the halt (R172, R182). -/
def closeCycle (s : State) : State :=
  { s with
    rxPhase := .idle, rxAppended := false
    rxRunning := s.rxRunning && !s.haltAfter
    rxStopPending := s.rxStopPending && !s.haltAfter
    haltAfter := false
    waiting := if s.haltAfter then [] else s.waiting.filter fun w => !w.isCycle
    responses := s.responses ++ (s.waiting.filter Waiter.isCycle).map Waiter.response
      ++ if s.haltAfter then (s.waiting.filter fun w => !w.isCycle).map Waiter.response else [] }

/-- A byte of the cycle in progress went in, or one of `bs` will (R173). -/
abbrev Appends (s : State) (bs : List Byte) : Prop :=
  s.rxAppended = true ∨ (bs ≠ [] ∧ s.q.length < s.cfg.capacity)

theorem appends_iff (s : State) (bs : List Byte) :
    (s.rxAppended || (!bs.isEmpty && decide (s.q.length < s.cfg.capacity))) = true ↔ Appends s bs := by
  simp [Appends]

/-- Where no byte goes in, `Q` stays. -/
theorem take_of_not_appends {s : State} {bs : List Byte} (hq : Fifo.wf s.cfg s.q)
    (h : ¬ Appends s bs) : (s.q ++ bs).take s.cfg.capacity = s.q := by
  by_cases hbs : bs = []
  · rw [hbs, List.append_nil, List.take_of_length_le hq]
  · have hFull : s.q.length = s.cfg.capacity :=
      hq.antisymm (Nat.not_lt.mp fun hlt => h (.inr ⟨hbs, hlt⟩))
    rw [← hFull, List.take_left]

/-- INGEST over settled answers that end in None, with the rest of the cycle (R172, R173). -/
theorem ingest_closes {s : State} {bs : List Byte} {rs : List (Option Byte)}
    (hr : s.readAnswers = bs.map some ++ none :: rs) (hq : Fifo.wf s.cfg s.q) :
    ingest s = closeCycle { s with
      readAnswers := rs
      q := if Appends s bs then afterFrame ((s.q ++ bs).take s.cfg.capacity) else s.q
      events := s.events ++
        if Appends s bs then firstFrameEvents s.cfg ((s.q ++ bs).take s.cfg.capacity) else [] } := by
  simp only [ingest_ended s bs rs hr hq, finishCycle_eq, appends_iff]
  by_cases h : Appends s bs
  · simp only [if_pos h, closeCycle]
  · simp only [if_neg h, take_of_not_appends hq h, closeCycle]

/-- Settles O34: the tick goes on with INGEST, and during a cycle the agent runs. -/
theorem suspendedCycleFinishes : Obligations.SuspendedCycleFinishes := by
  intro s c rest bs rs hInv hp ha hr
  obtain ⟨_, hq, ⟨_, hRunning, _⟩, _⟩ := hInv
  have hrun : s.rxRunning = true := hRunning (by simp [hp])
  have hListed : s.readAnswers ≠ [] := by simp [hr]
  rw [step_tick_ingest ha hp, resumeIngest_listed (s := { s with agenda := rest }) hListed,
    ingest_closes (s := { s with agenda := rest }) hr hq]
  simp only [closeCycle, hrun, Bool.true_and]

/-! ### A cycle from IDLE -/

/-- A count of 0 leaves only the end of the cycle (R173). -/
theorem runCycle_empty {s : State} {as : List Nat} (ha : s.availAnswers = 0 :: as) :
    runCycle s = finishCycle { s with rxPhase := .ingest, rxAppended := false, availAnswers := as } :=
  runCycle_listed ha

/-- A count above 0 begins INGEST with nothing appended (R172, R173). -/
theorem runCycle_counted {s : State} {n : Nat} {as : List Nat} (ha : s.availAnswers = (n + 1) :: as) :
    runCycle s = ingest { s with rxPhase := .ingest, rxAppended := false, availAnswers := as } :=
  runCycle_listed ha

/-- With a count of 0 no byte is read and nothing extracted. -/
theorem runCycle_empty_closes {s : State} {as : List Nat} (ha : s.availAnswers = 0 :: as) :
    runCycle s = closeCycle { s with availAnswers := as } := by
  rw [runCycle_empty ha, finishCycle_eq]
  simp [closeCycle]

/-- With a count above 0 the bytes go in up to None, and one frame is extracted if one of them did. -/
theorem runCycle_counted_closes {s : State} {n : Nat} {as : List Nat} {bs : List Byte}
    {rs : List (Option Byte)} (ha : s.availAnswers = (n + 1) :: as)
    (hr : s.readAnswers = bs.map some ++ none :: rs) (hq : Fifo.wf s.cfg s.q) :
    runCycle s = closeCycle { s with
      availAnswers := as, readAnswers := rs
      q := if bs ≠ [] ∧ s.q.length < s.cfg.capacity then
        afterFrame ((s.q ++ bs).take s.cfg.capacity) else s.q
      events := s.events ++ if bs ≠ [] ∧ s.q.length < s.cfg.capacity then
        firstFrameEvents s.cfg ((s.q ++ bs).take s.cfg.capacity) else [] } := by
  rw [runCycle_counted ha, ingest_closes (s := { s with
    rxPhase := .ingest, rxAppended := false, availAnswers := as }) hr hq]
  simp [closeCycle, Appends]

/-- Between cycles, as the invariant has it (`Inv.idle`): no RX_CYCLE waits, no last cycle is in progress,
and nothing was appended. -/
abbrev AtRest (s : State) : Prop :=
  Waiter.cycle ∉ s.waiting ∧ s.haltAfter = false ∧ s.rxAppended = false

/-- A cycle with a caller ends with the caller answered, the only one. -/
theorem closeCycle_withCaller {s : State} (hp : s.rxPhase = .idle) (h : AtRest s) :
    closeCycle (withCaller s) = { s with responses := s.responses ++ [bare .ok] } := by
  obtain ⟨hc, hh, happ⟩ := h
  obtain ⟨hNone, hAll⟩ := filter_of_no_cycle hc
  simp [closeCycle, withCaller, hp, hh, happ, hNone, hAll, List.filter_cons]

/-- The last cycle ends with the halt, where all waiting calls are RX_STOP calls (R182). -/
theorem closeCycle_last {s : State} (hp : s.rxPhase = .idle) (h : AtRest s) :
    closeCycle { s with haltAfter := true } = { s with
      rxRunning := false, rxStopPending := false, waiting := []
      responses := s.responses ++ s.waiting.map Waiter.response } := by
  obtain ⟨hc, hh, happ⟩ := h
  obtain ⟨hNone, hAll⟩ := filter_of_no_cycle hc
  simp [closeCycle, hp, hh, happ, hNone, hAll]

/-- Settles O32: RX_CYCLE runs a cycle with its caller waiting, who is answered at its end. -/
theorem rxCycleIngestsThenExtractsOnce : Obligations.RxCycleIngestsThenExtractsOnce := by
  intro s as hInv hb
  obtain ⟨_, _, hp⟩ := id hb
  obtain ⟨_, hq, _⟩ := id hInv
  have hRest : AtRest s := hInv.idle hp
  rw [exec_rxCycle_withCaller hb]
  refine ⟨fun ha => congrArg _ ?_, fun n bs rs ha hReads => congrArg _ ?_⟩
  · exact (runCycle_empty_closes (s := withCaller s) ha).trans
      (closeCycle_withCaller (s := { s with availAnswers := as }) hp hRest)
  · exact (runCycle_counted_closes (s := withCaller s) ha hReads hq).trans
      (closeCycle_withCaller (s := { s with availAnswers := as, readAnswers := rs, q := _, events := _ })
        hp hRest)

/-! ### HALT and the last cycle -/

theorem Waiter.response_injective : Function.Injective Waiter.response := by
  intro v w h
  match v, w, h with
  | .cycle, .cycle, _ => rfl
  | .stop _, .stop _, h => simpa using h

/-- Of the waiting calls exactly one took effect while a stop is pending (R171). -/
theorem Inv.one_effective_stop {s : State} (h : Inv s) (hs : s.rxStopPending = true) :
    (s.waiting.map Waiter.response).count (okFlag true) = 1 := by
  obtain ⟨_, _, _, _, _, hTrue, _⟩ := h
  calc (s.waiting.map Waiter.response).count (Waiter.response (.stop true))
      = s.waiting.count (.stop true) := List.count_map_of_injective _ _ Waiter.response_injective _
    _ = 1 := by rw [hTrue, if_pos hs]

theorem Inv.running_of_stopPending {s : State} (h : Inv s) (hs : s.rxStopPending = true) :
    s.rxRunning = true := by
  obtain ⟨_, _, ⟨hStop, _⟩, _⟩ := h
  exact hStop hs

/-- A tick between cycles with a stop pending is HALT or the last cycle, as chosen (R182). -/
theorem step_tick_stopping {s : State} {c : Bool} {rest : List Input} (h : Inv s)
    (hp : s.rxPhase = .idle) (hs : s.rxStopPending = true) (ha : s.agenda = .agent c :: rest) :
    step s = .next (if c then runCycle { s with agenda := rest, haltAfter := true }
      else halt { s with agenda := rest }) := by
  rw [step_tick ha, agentStep_idle c (by exact hp)]
  simp only [h.running_of_stopPending hs, hs, if_true]

/-- Settles O27: between cycles all waiting calls are RX_STOP calls, which the halt answers. -/
theorem haltAnswersEveryStop : Obligations.HaltAnswersEveryStop := by
  intro s rest hInv hp hs ha
  obtain ⟨hc, hh, _⟩ := hInv.idle hp
  obtain ⟨hNone, hAll⟩ := filter_of_no_cycle hc
  refine ⟨?_, hInv.one_effective_stop hs⟩
  rw [step_tick_stopping hInv hp hs ha]
  simp [halt, hh, hNone, hAll]

/-- Settles O28: the last cycle is a cycle at whose end the halt answers the waiting calls. -/
theorem lastCycleIsFollowedByHalt : Obligations.LastCycleIsFollowedByHalt := by
  intro s rest as hInv hp hs ha
  obtain ⟨_, hq, _⟩ := id hInv
  have hRest : AtRest s := hInv.idle hp
  rw [step_tick_stopping hInv hp hs ha, if_pos rfl]
  refine ⟨fun hAvail => congrArg _ ?_, fun n bs rs hAvail hReads => congrArg _ ?_⟩
  · exact (runCycle_empty_closes (s := { s with agenda := rest, haltAfter := true }) hAvail).trans
      (closeCycle_last (s := { s with agenda := rest, availAnswers := as }) hp hRest)
  · exact (runCycle_counted_closes (s := { s with agenda := rest, haltAfter := true })
        hAvail hReads hq).trans
      (closeCycle_last (s := { s with
        agenda := rest, availAnswers := as, readAnswers := rs, q := _, events := _ }) hp hRest)

/-! ### The tick and RX_CYCLE -/

/-- `u` is `t` but for one more RX_CYCLE, answered where the cycle ended, waiting where it did not. -/
def OneMoreCaller (t u : State) : Prop :=
  (t.rxPhase = .idle → u = { t with responses := t.responses ++ [bare .ok] }) ∧
    (t.rxPhase ≠ .idle → u = withCaller t)

theorem OneMoreCaller.waits {t : State} (h : t.rxPhase ≠ .idle) : OneMoreCaller t (withCaller t) :=
  ⟨fun hp => absurd hp h, fun _ => rfl⟩

theorem finishCycle_withCaller {s : State} (hh : s.haltAfter = false) :
    OneMoreCaller (finishCycle s) (finishCycle (withCaller s)) := by
  have hIdle : (finishCycle s).rxPhase = .idle := by rw [finishCycle_eq]
  refine ⟨fun _ => ?_, fun hp => absurd hIdle hp⟩
  simp [finishCycle_eq, withCaller, hh, List.filter_cons]

theorem ingest_withCaller {s : State} (hp : s.rxPhase ≠ .idle) (hh : s.haltAfter = false) :
    OneMoreCaller (ingest s) (ingest (withCaller s)) := by
  have hLoop : afterLoop (withCaller s) = withCaller (afterLoop s) := rfl
  rw [ingest_eq, ingest_eq, hLoop]
  cases h : (ingestLoop s.cfg.capacity s.readAnswers s.q s.rxAppended).ended with
  | true => simpa [withCaller, h] using finishCycle_withCaller (s := afterLoop s) hh
  | false => simpa [withCaller, h] using OneMoreCaller.waits (t := afterLoop s) hp

theorem runCycle_withCaller_listed {s : State} {n : Nat} {as : List Nat}
    (ha : s.availAnswers = n :: as) (hh : s.haltAfter = false) :
    OneMoreCaller (runCycle s) (runCycle (withCaller s)) := by
  cases n with
  | zero =>
    rw [runCycle_empty ha, runCycle_empty (s := withCaller s) ha]
    exact finishCycle_withCaller hh
  | succ n =>
    rw [runCycle_counted ha, runCycle_counted (s := withCaller s) ha]
    exact ingest_withCaller nofun hh

theorem runCycle_withCaller {s : State} (hh : s.haltAfter = false) :
    OneMoreCaller (runCycle s) (runCycle (withCaller s)) := by
  cases ha : s.availAnswers with
  | nil =>
    rw [runCycle_draw ha, runCycle_draw (s := withCaller s) ha]
    exact runCycle_withCaller_listed (s := withDrawnAvail s) rfl hh
  | cons n as => exact runCycle_withCaller_listed ha hh

/-- A tick placed before the agenda is the agent's move. -/
theorem step_placed_tick (s : State) (c : Bool) :
    step { s with agenda := .agent c :: s.agenda } = .next (agentStep c s) :=
  step_tick rfl

/-- Settles O35: both run the same cycle, which is not the last one, with and without a caller. -/
theorem pollTickAndRxCycleAreTheSameStep : Obligations.PollTickAndRxCycleAreTheSameStep := by
  intro s t c hInv hb hTick
  obtain ⟨_, hh, _⟩ := hInv.idle hb.2.2
  rw [step_placed_tick, agentStep_between c hb] at hTick
  cases hTick
  obtain ⟨hEnds, hWaits⟩ := runCycle_withCaller hh
  rw [exec_rxCycle_withCaller hb]
  exact ⟨fun hp => congrArg _ (hEnds hp), fun hp => congrArg _ (hWaits hp)⟩

/-- Settles O36: the agent's move, which does not depend on the last-cycle choice, and the request held. -/
theorem rxCycleDuringCycleStaysAtThePort : Obligations.RxCycleDuringCycleStaysAtThePort := by
  intro s t c hr hs hp hTick
  rw [step_placed_tick, agentStep_choice c false hp] at hTick
  cases hTick
  simp [exec, execRxCycle, hr, hs, hp, holdRequest]

end Sys2Proof.Machine
end

section
/-! RX_START, RX_STOP, RX_CYCLE while stopped, and TX_SEND (43_framer.md R170 to R172, R181), and the events
of a step (R179). -/

namespace Sys2Proof.Machine

/-- Settles O25: RX_START looks at `rx_running` alone. -/
theorem rxStartIsIdempotent : Obligations.RxStartIsIdempotent := by
  refine ⟨selects_of_lookup rfl, fun s => ⟨fun hr => ?_, fun hr => ?_⟩⟩
  · simp [Answers, exec, execRxStart, hr, respond]
  · simp [exec, execRxStart, hr, respond]

/-- Settles O26: the three branches of RX_STOP. -/
theorem rxStopWaitsForTheHalt : Obligations.RxStopWaitsForTheHalt := by
  refine ⟨selects_of_lookup rfl, fun s => ⟨fun hr => ?_, fun hr hs => ?_, fun hr hs => ?_⟩⟩
  · simp [Answers, exec, execRxStop, hr, respond]
  · simp [exec, execRxStop, hr, hs]
  · simp [exec, execRxStop, hr, hs]

/-- Settles O31: the guard of RX_CYCLE. -/
theorem rxCycleIsIdleWhileStopped : Obligations.RxCycleIsIdleWhileStopped := by
  refine ⟨selects_of_lookup rfl, fun s h => ?_⟩
  rw [Answers, exec, execRxCycle, if_pos h]
  rfl

theorem transportWrite_listed (bytes : List Byte) {s : State} {ok : Bool} {ws : List Bool}
    (h : s.writeAnswers = ok :: ws) :
    transportWrite bytes s = (ok, { s with sent := s.sent ++ [bytes], writeAnswers := ws }) := by
  simp only [transportWrite, drawWrite, h]

/-- Settles O29: the next listed answer of the transport chooses the status. -/
theorem txSendReportsTheWrite : Obligations.TxSendReportsTheWrite := by
  refine ⟨selects_of_lookup rfl, fun s bytes ws => ⟨fun h => ?_, fun h => ?_⟩⟩
  · rw [exec, execTxSend, transportWrite_listed bytes h]
    rfl
  · rw [exec, execTxSend, transportWrite_listed bytes h]
    rfl

/-- The event history grows by at most one event. -/
def AtMostOneEvent (s t : State) : Prop :=
  ∃ es : List Event, es.length ≤ 1 ∧ t.events = s.events ++ es

theorem AtMostOneEvent.of_eq {s t : State} (h : t.events = s.events) : AtMostOneEvent s t :=
  ⟨[], Nat.zero_le 1, by rw [h, List.append_nil]⟩

/-- Only an agent move and a wire command can raise an event. -/
theorem exec_atMostOneEvent {i : Instr} {s t : State} (h : exec i s = .next t) :
    AtMostOneEvent s t := by
  rcases exec_cases h with ⟨_, _, _, rfl⟩ | ⟨_, _, _, _, rfl⟩ | ⟨_, _, _, _, rfl⟩ | ⟨_, _, rfl⟩ |
    ⟨_, _, _, rfl⟩ | ⟨_, _, _, rfl⟩ | ⟨_, _, rfl⟩ | ⟨_, _, _, _, rfl⟩ | ⟨_, _, _, _, _, rfl⟩ |
    ⟨_, id, payload, rfl⟩
  · exact .of_eq rfl
  · exact .of_eq rfl
  · exact .of_eq rfl
  · exact .of_eq rfl
  · exact .of_eq rfl
  · exact .of_eq rfl
  · exact (runCycle_move { s with waiting := s.waiting ++ [.cycle] }).events
  · exact (agentStep_move false s).events
  · exact .of_eq rfl
  · exact ⟨_, reportEvents_length_le s.cfg id payload, rfl⟩

/-- Settles O53: a step but a reset is an agent move, an instruction, or answers settled (`step_cases`). -/
theorem atMostOneEventPerStep : Obligations.AtMostOneEventPerStep := by
  intro s t h hReset
  obtain ⟨_, c, draws, rfl⟩ | ⟨_, rest, _, _, _, he⟩ | ⟨_, _, _, _, _, rfl⟩ | ⟨rest, ha, _⟩ := step_cases h
  · exact (agentStep_move c { s with agenda := s.agenda.tail, draws := draws }).events
  · exact exec_atMostOneEvent (s := { s with agenda := rest }) he
  · exact AtMostOneEvent.of_eq rfl
  · exact absurd ha (hReset rest)

end Sys2Proof.Machine
end

section
/-! Statuses, and what no operation does (60_exceptions.md R200, R201, R207, R210, R211): none stops the block,
none but a reset is refused, and none on the host port but RX_CYCLE raises an event. -/

namespace Sys2Proof.Machine

/-- Settles O48: R201's table, row by row. -/
theorem statusCodesAreNumbered : Obligations.StatusCodesAreNumbered :=
  ⟨rfl, rfl, rfl, rfl, rfl, rfl⟩

/-! ### No event from the host port -/

/-- Settles O54: of the shapes of an instruction (`exec_cases`) only a cycle and a wire command touch the
event history, and of the others only the two mutators of the FIFO port touch `Q`. -/
theorem hostOperationsEmitNoEvents : Obligations.HostOperationsEmitNoEvents := by
  intro i s t hHost hCycle he
  rcases exec_cases he with ⟨_, _, _, rfl⟩ | ⟨b, hi, _, _, rfl⟩ | ⟨n, hi, _, _, rfl⟩ | ⟨_, _, rfl⟩ |
    ⟨_, _, _, rfl⟩ | ⟨_, _, _, rfl⟩ | ⟨hi, _⟩ | ⟨hi, _⟩ | ⟨_, _, _, _, _, rfl⟩ | ⟨hWire, _⟩
  · exact ⟨rfl, fun _ _ => rfl⟩
  · exact ⟨rfl, fun hPush _ => absurd hi (hPush b)⟩
  · exact ⟨rfl, fun _ hDrain => absurd hi (hDrain n)⟩
  · exact ⟨rfl, fun _ _ => rfl⟩
  · exact ⟨rfl, fun _ _ => rfl⟩
  · exact ⟨rfl, fun _ _ => rfl⟩
  · exact absurd hi hCycle
  · exact absurd hi hCycle
  · exact ⟨rfl, fun _ _ => rfl⟩
  · exact absurd hHost hWire

/-! ### No stop -/

/-- An instruction is a function on states (`exec_blind`), so it has a next state in each. -/
theorem exec_runs (i : Instr) (s : State) : Runs (exec i s) := by
  obtain ⟨f, _, hExec⟩ := exec_blind i
  exact ⟨f s, hExec s⟩

theorem step_runs_of_not_reset {s : State} (h : ∀ rest, s.agenda ≠ .reset :: rest) : Runs (step s) := by
  obtain ⟨f, _, hStep⟩ := step_blind s.agenda h
  exact ⟨f s, hStep s rfl⟩

theorem step_reset {s : State} {rest : List Input} (h : s.agenda = .reset :: rest) :
    step s = applyReset { s with agenda := rest } := by
  simp only [step, h]

theorem applyReset_quiescent {s : State} (h : Quiescent s) : applyReset s = .next (resetBlock s) :=
  if_pos h

theorem applyReset_busy {s : State} (h : ¬ Quiescent s) :
    applyReset s = .refused .resetDuringOperation :=
  if_neg h

/-- Settles O52: a step that is no reset is a function on states, and a reset asks whether the block is
quiescent (R231). -/
theorem onlyAnEarlyResetIsRefused : Obligations.OnlyAnEarlyResetIsRefused := by
  refine ⟨exec_runs, fun s => ?_⟩
  by_cases hReset : ∃ rest, s.agenda = .reset :: rest
  · obtain ⟨rest, ha⟩ := hReset
    rw [step_reset ha]
    by_cases hq : Quiescent s
    · exact .inl ⟨_, applyReset_quiescent hq⟩
    · exact .inr ⟨applyReset_busy hq, not_and_or.mp hq, rest, ha⟩
  · exact .inl (step_runs_of_not_reset (not_exists.mp hReset))

end Sys2Proof.Machine
end

section
/-! Hazards and reset (70_reset_and_hazards.md R230, R231, R235, R240): what a step but a reset can do to the
parameters, `Q` and the event history, what follows on a wedged FIFO and on one too small for a frame, and
what a reset does. -/

namespace Sys2Proof.Machine

/-! ### What a step does to `Q` and the event history -/

/-- `t` has the parameters and the event history of `s`, and `q` in the FIFO. -/
structure Stores (s : State) (q : List Byte) (t : State) : Prop where
  cfg_eq : t.cfg = s.cfg
  q_eq : t.q = q
  events_eq : t.events = s.events

/-- A step as seen from the parameters, `Q` and the event history: nothing changes, a push into a FIFO with
room, a drain asked for while stopped, or an agent's move. -/
inductive FifoMove (s t : State) : Prop where
  | keep (h : Stores s s.q t)
  | push (b : Byte) (hRoom : s.q.length < s.cfg.capacity) (h : Stores s (s.q ++ [b]) t)
  | drain (r : Request) (rest : List Input) (n : Nat) (ha : s.agenda = .request r :: rest)
      (hSel : r.sel = 0x3100) (hStopped : s.rxRunning = false) (h : Stores s (s.q.drop n) t)
  | agent {u v : State} (hMove : AgentMove u v) (hu : Stores s s.q u) (ht : Stores v v.q t)

/-- FIFO.DRAIN has one selector (R79). -/
theorem sel_of_decode_fifoDrain {r : Request} {n : Half} (h : decodeRequest r = .ok (.fifoDrain n)) :
    r.sel = 0x3100 := by
  obtain ⟨_, hRow⟩ := decodeRequest_row h
  have hSel : 0x3100 = r.sel.toNat := congrArg Prod.snd hRow
  exact BitVec.eq_of_toNat_eq hSel.symm

/-- Of the shapes of an instruction (`exec_cases`) the port's requests have all but the wire command's. -/
theorem request_fifoMove {s t : State} {r : Request} {rest : List Input} {i : Instr}
    (ha : s.agenda = .request r :: rest) (hd : decodeRequest r = .ok i)
    (he : exec i { s with agenda := rest } = .next t) : FifoMove s t := by
  rcases exec_cases he with ⟨_, _, _, rfl⟩ | ⟨b, _, _, hRoom, rfl⟩ | ⟨n, rfl, hr, _, rfl⟩ | ⟨_, _, rfl⟩ |
    ⟨_, _, _, rfl⟩ | ⟨_, _, _, rfl⟩ | ⟨_, _, rfl⟩ | ⟨_, _, _, _, rfl⟩ | ⟨_, _, _, _, _, rfl⟩ | ⟨hWire, _⟩
  · exact .keep ⟨rfl, rfl, rfl⟩
  · exact .push b hRoom ⟨rfl, rfl, rfl⟩
  · exact .drain r rest n.toNat ha (sel_of_decode_fifoDrain hd) hr ⟨rfl, rfl, rfl⟩
  · exact .keep ⟨rfl, rfl, rfl⟩
  · exact .keep ⟨rfl, rfl, rfl⟩
  · exact .keep ⟨rfl, rfl, rfl⟩
  · have hMove := runCycle_move { s with agenda := rest, waiting := s.waiting ++ [.cycle] }
    exact .agent hMove ⟨rfl, rfl, rfl⟩ ⟨rfl, rfl, rfl⟩
  · have hMove := agentStep_move false { s with agenda := rest }
    exact .agent hMove ⟨rfl, rfl, rfl⟩ ⟨rfl, rfl, rfl⟩
  · exact .keep ⟨rfl, rfl, rfl⟩
  · exact absurd (decodeRequest_row hd).1 hWire

theorem step_fifoMove {s t : State} (h : step s = .next t) (hReset : ∀ rest, s.agenda ≠ .reset :: rest) :
    FifoMove s t := by
  rcases step_cases h with
    ⟨_, c, draws, rfl⟩ | ⟨_, _, _, ha, hd, he⟩ | ⟨_, _, _, _, _, rfl⟩ | ⟨rest, ha, _⟩
  · have hMove := agentStep_move c { s with agenda := s.agenda.tail, draws := draws }
    exact .agent hMove ⟨rfl, rfl, rfl⟩ ⟨rfl, rfl, rfl⟩
  · exact request_fifoMove ha hd he
  · exact .keep ⟨rfl, rfl, rfl⟩
  · exact absurd ha (hReset rest)

/-! ### The wedge -/

theorem Stores.wedged {s t : State} (h : Stores s s.q t) (hw : Wedged s) : Wedged t := by
  rwa [Wedged, h.cfg_eq, h.q_eq]

/-- An agent's move on a wedged FIFO changes nothing that `Stores` speaks of (R235). -/
theorem AgentMove.stores_of_wedged {s t : State} (h : AgentMove s t) (hw : Wedged s) :
    Stores s s.q t := by
  obtain ⟨hq, he⟩ := h.wedged hw
  obtain ⟨hc, _⟩ := h
  exact ⟨hc, hq, he⟩

theorem Stores.trans {s t u : State} {q : List Byte} (h : Stores s q t) (h' : Stores t t.q u) :
    Stores s q u :=
  ⟨h'.cfg_eq.trans h.cfg_eq, h'.q_eq.trans h.q_eq, h'.events_eq.trans h.events_eq⟩

/-- Settles O43: a push finds no room, an agent's move neither room nor a frame, and a drain is shut out. -/
theorem wedgeIsPermanent : Obligations.WedgeIsPermanent := by
  intro s t hw hStep hReset hDrain
  have hKeep : Stores s s.q t := by
    cases step_fifoMove hStep hReset with
    | keep h => exact h
    | push _ hRoom _ => exact absurd hRoom (Nat.not_lt.mpr hw.1)
    | drain r rest _ ha hSel hStopped _ =>
      exact absurd ((hDrain r rest ha hSel).symm.trans hStopped) nofun
    | agent hMove hu ht => exact (hu.trans (hMove.stores_of_wedged (hu.wedged hw))).trans ht
  exact ⟨hKeep.q_eq, hKeep.events_eq, hKeep.wedged hw⟩

/-! ### A capacity below a frame's length -/

theorem frameStart_of_length_lt {S : List Byte} (h : S.length < 13) : frameStart S = none := by
  cases hStart : frameStart S with
  | none => rfl
  | some i =>
    have hBound := frameStart_bound hStart
    omega

/-- INGEST fills the FIFO up to the capacity only, so there is no whole frame to extract (R175, R240). -/
theorem AgentMove.events_of_small {s t : State} (h : AgentMove s t) (hq : Fifo.wf s.cfg s.q)
    (hSmall : s.cfg.capacity < 13) : t.events = s.events := by
  obtain ⟨_, _, _, rs, appended, ⟨_, he⟩ | ⟨_, he⟩⟩ := h
  · exact he
  · have hLength := ingestLoop_length_le s.cfg.capacity rs s.q appended hq
    have hNone := frameStart_of_length_lt (hLength.trans_lt hSmall)
    rw [he, (extraction_of_none hNone s.cfg).2, List.append_nil]

/-- Settles O44: only an agent's move could raise an event. -/
theorem noEventWithCapacityBelowAFrame : Obligations.NoEventWithCapacityBelowAFrame := by
  intro s t hInv hSmall hStep hReset
  obtain ⟨_, hq, _⟩ := hInv
  cases step_fifoMove hStep hReset with
  | keep h => exact h.events_eq
  | push _ _ h => exact h.events_eq
  | drain _ _ _ _ _ _ h => exact h.events_eq
  | @agent u v hMove hu ht =>
    have hqu : Fifo.wf u.cfg u.q := by rwa [hu.cfg_eq, hu.q_eq]
    calc t.events = v.events := ht.events_eq
      _ = u.events := hMove.events_of_small hqu (by rwa [hu.cfg_eq])
      _ = s.events := hu.events_eq

/-! ### The parameters, and the reset -/

theorem FifoMove.cfg_eq {s t : State} (h : FifoMove s t) : t.cfg = s.cfg := by
  cases h with
  | keep h => exact h.cfg_eq
  | push _ _ h => exact h.cfg_eq
  | drain _ _ _ _ _ _ h => exact h.cfg_eq
  | agent hMove hu ht =>
    obtain ⟨hCfg, _⟩ := hMove
    exact ht.cfg_eq.trans (hCfg.trans hu.cfg_eq)

/-- A reset that is not refused was taken while quiescent. -/
theorem applyReset_next {s t : State} (h : applyReset s = .next t) : t = resetBlock s := by
  by_cases hq : Quiescent s
  · exact Host.Outcome.next.inj (h.symm.trans (applyReset_quiescent hq))
  · exact absurd (h.symm.trans (applyReset_busy hq)) nofun

/-- Settles O51: a reset keeps the parameters too (R230). -/
theorem parametersNeverChange : Obligations.ParametersNeverChange := by
  intro s t hStep
  by_cases hReset : ∃ rest, s.agenda = .reset :: rest
  · obtain ⟨rest, ha⟩ := hReset
    rw [step_reset ha] at hStep
    rw [applyReset_next hStep]
    rfl
  · exact (step_fifoMove hStep (not_exists.mp hReset)).cfg_eq

/-- Settles O47: the reset input asks whether the block is quiescent, and if so writes R35's values. -/
theorem resetOnlyWhileQuiescent : Obligations.ResetOnlyWhileQuiescent := by
  intro s rest ha
  rw [step_reset ha]
  refine ⟨fun hq => ?_, fun hq => applyReset_busy hq⟩
  exact ⟨_, applyReset_quiescent hq, rfl, rfl, rfl, rfl, rfl, rfl, rfl, rfl⟩

end Sys2Proof.Machine
end

section
/-! Hazards of the receive cycle (70_reset_and_hazards.md R234, R236, R239): a cycle that does not end, one in
which nothing goes in, and a truncated frame before a whole one. -/

namespace Sys2Proof.Machine

/-! ### A cycle that does not end -/

/-- Where nothing went in before, `rx_appended` says whether one of these bytes does. -/
theorem ingest_open_fresh {s : State} {bs : List Byte} (happ : s.rxAppended = false)
    (hr : s.readAnswers = bs.map some) (hq : Fifo.wf s.cfg s.q) :
    ingest s = { s with
      readAnswers := []
      q := (s.q ++ bs).take s.cfg.capacity
      rxAppended := decide (bs ≠ [] ∧ s.q.length < s.cfg.capacity) } := by
  have hAppended : (false || (!bs.isEmpty && decide (s.q.length < s.cfg.capacity))) =
      decide (bs ≠ [] ∧ s.q.length < s.cfg.capacity) := Bool.eq_iff_iff.mpr (by simp)
  rw [ingest_open s bs hr hq, happ, hAppended]

/-- Settles O33: INGEST's loop ends at None only (`ingest_open`). -/
theorem ingestDoesNotEndWithoutNone : Obligations.IngestDoesNotEndWithoutNone := by
  intro s bs hInv hReads
  obtain ⟨_, hq, _⟩ := hInv
  refine ⟨fun n as hb ha => ?_, fun c rest hp hbs ha => ?_⟩
  · rw [exec_rxCycle_withCaller hb, runCycle_counted (s := withCaller s) ha,
      ingest_open_fresh (s := { withCaller s with
        rxPhase := .ingest, rxAppended := false, availAnswers := as }) rfl hReads hq]
    rfl
  · have hListed : s.readAnswers ≠ [] := by simpa [hReads] using hbs
    rw [step_tick_ingest ha hp, resumeIngest_listed (s := { s with agenda := rest }) hListed,
      ingest_open { s with agenda := rest } bs hReads hq]
    simp [List.isEmpty_eq_false_iff.mpr hbs]

/-! ### A cycle in which nothing goes in -/

/-- A cycle with a count of 0 leaves `Q` and the event history (R173). -/
theorem runCycle_empty_stores {s : State} {as : List Nat} (ha : s.availAnswers = 0 :: as) :
    Stores s s.q (runCycle s) := by
  rw [runCycle_empty_closes ha]
  exact ⟨rfl, rfl, rfl⟩

/-- So does a cycle whose first read is None. -/
theorem runCycle_noByte_stores {s : State} {n : Nat} {as : List Nat} {rs : List (Option Byte)}
    (ha : s.availAnswers = n :: as) (hr : s.readAnswers = none :: rs) (hq : Fifo.wf s.cfg s.q) :
    Stores s s.q (runCycle s) := by
  cases n with
  | zero => exact runCycle_empty_stores ha
  | succ n =>
    rw [runCycle_counted_closes (bs := []) ha hr hq]
    exact ⟨rfl, rfl, List.append_nil _⟩

/-- And so does a cycle on a full FIFO, whether it ends or stays in INGEST: no push succeeds, so
`rx_appended` stays clear and no frame is looked for (R172). -/
theorem runCycle_full_stores {s : State} (hFull : s.cfg.capacity ≤ s.q.length) :
    Stores s s.q (runCycle s) := by
  obtain ⟨t, ⟨rs, _, _, _, rfl⟩, ht⟩ := runCycle_cases s
  obtain ⟨hq, happ⟩ := ingestLoop_full s.cfg.capacity rs s.q false hFull
  obtain ht | ht := ht <;> rw [ht]
  · exact ⟨by rw [finishCycle_eq], by simp [finishCycle_eq, hq, happ], by simp [finishCycle_eq, happ]⟩
  · exact ⟨rfl, hq, rfl⟩

/-- Settles O42: whatever keeps the bytes out, the extraction is skipped. -/
theorem noExtractionWithoutAppend : Obligations.NoExtractionWithoutAppend := by
  intro s t hInv hb he hNothing
  obtain ⟨_, hq, _⟩ := hInv
  rw [exec_rxCycle_withCaller hb] at he
  cases he
  have hStores : Stores (withCaller s) s.q (runCycle (withCaller s)) := by
    obtain ⟨as, ha⟩ | ⟨n, as, rs, ha, hr⟩ | hFull := hNothing
    · exact runCycle_empty_stores (s := withCaller s) ha
    · exact runCycle_noByte_stores (s := withCaller s) ha hr hq
    · exact runCycle_full_stores (s := withCaller s) hFull.ge
  exact ⟨hStores.q_eq, hStores.events_eq⟩

/-! ### A truncated frame -/

/-- Bytes that begin with a preamble and an id hold their first frame there, if 8 more bytes follow. -/
theorem frameStart_wireFrame (id : Byte) {bytes : List Byte} (h : 8 ≤ bytes.length) :
    frameStart (wireFrame id bytes) = some 0 := by
  refine frameStart_of_whole (if_pos rfl) ?_
  rw [wireFrame_length]
  omega

/-- That frame's payload is the first 8 bytes, wherever they come from, and the rest is left (R176, R177). -/
theorem extraction_wireFrame (p : Params) (id : Byte) {bytes : List Byte} (h : 8 ≤ bytes.length) :
    firstFrameEvents p (wireFrame id bytes) = reportEvents p id (bytes.take 8) ∧
      afterFrame (wireFrame id bytes) = bytes.drop 8 := by
  have hStart := frameStart_wireFrame id h
  rw [firstFrameEvents_of_some hStart, afterFrame_of_some hStart, reportEvents_take]
  exact ⟨rfl, rfl⟩

/-- A frame cut within its payload is a preamble and an id, and the bytes after it come next. -/
theorem wireFrame_take_append (id : Byte) (payload S : List Byte) (j : Nat) :
    (wireFrame id payload).take (j + 5) ++ S = wireFrame id (payload.take j ++ S) := rfl

/-- Settles O45: the cut frame's payload is filled up from the whole frame. -/
theorem truncatedFrameSwallowsTheNext : Obligations.TruncatedFrameSwallowsTheNext := by
  intro p id1 id2 payload1 payload2 k hLen1 hLen2 hLow hHigh
  obtain ⟨j, rfl⟩ := Nat.exists_eq_add_of_le' hLow
  have hj : j ≤ 8 := by omega
  have hCut : (payload1.take j).length = j := List.length_take_of_le (hj.trans_eq hLen1.symm)
  have hWhole : 8 ≤ (payload1.take j ++ wireFrame id2 payload2).length := by
    rw [List.length_append, wireFrame_length]
    omega
  have hRest : 13 - (j + 5) = 8 - j := by omega
  obtain ⟨hEvents, hAfter⟩ := extraction_wireFrame p id1 hWhole
  simp only [wireFrame_take_append, Nat.add_sub_cancel, hRest, hEvents, hAfter, List.take_append,
    List.drop_append, List.take_take, hCut, Nat.min_eq_right hj, List.drop_eq_nil_of_le (hCut.trans_le hj),
    List.nil_append, and_self]

end Sys2Proof.Machine
end
